-- ==== Sys2Proof/Word.lean ====
section
/-! DEFINITION. The word types of RIDA-GF8 (spec 00_scope.md R8, 10_state.md R40, 20_memory.md R63): every cell is an
unsigned number of 1, 3, 8, 9, 16 or 32 bits; bit 0 is the least significant bit. -/

namespace Sys2Proof

/-- A field element, or one byte of data (R8, R120). -/
abbrev Byte := BitVec 8

/-- A length or a chunk index (`LEN_W` = 16, R6). -/
abbrev Half := BitVec 16

/-- A command word, a cell offset or the data path of the host bus (R60, R90). -/
abbrev Word := BitVec 32

/-- A reduction polynomial: bit i is the coefficient of t^i, bit 8 included (R122). -/
abbrev Poly := BitVec 9

end Sys2Proof
end

