-- ==== Sys2Proof/Machine/Field.lean ====
section
/-! DEFINITION. The pure functions of the field GF(2^8) (40_field.md R120 to R131) and of polynomial evaluation (R161).
`POLY` is their first argument. -/

namespace Sys2Proof.Machine

/-- `zero()` (R123). -/
def gfZero : Byte := 0x00

/-- `one()` (R123). -/
def gfOne : Byte := 0x01

/-- `add(a, b)`, bitwise exclusive-or (R124). -/
def gfAdd (a b : Byte) : Byte := a ^^^ b

/-- `sub(a, b)`, the same function (R124). -/
def gfSub (a b : Byte) : Byte := a ^^^ b

/-- First loop of R125: the carry-less product of `a(t)` and `b(t)`, 15 bits. -/
def clMul (a b : Byte) : BitVec 15 :=
  (List.range 8).foldl (fun p i => if b.getLsbD i then p ^^^ (a.setWidth 15 <<< i) else p) 0

/-- Second loop of R125: for i from 14 down to 8, if bit i is set, add `POLY << (i-8)`. -/
def gfReduce (poly : Poly) (p : BitVec 15) : BitVec 15 :=
  [14, 13, 12, 11, 10, 9, 8].foldl
    (fun p i => if p.getLsbD i then p ^^^ (poly.setWidth 15 <<< (i - 8)) else p) p

/-- `mul(a, b)` (R125). -/
def gfMul (poly : Poly) (a b : Byte) : Byte := (gfReduce poly (clMul a b)).setWidth 8

/-- `pow(a, e)` by repeated multiplication (R129). -/
def gfPow (poly : Poly) (a : Byte) : Nat → Byte
  | 0 => gfOne
  | e + 1 => gfMul poly (gfPow poly a e) a

/-- `inverse(a)`: for `a != 0` the byte b with `mul(a, b) = 0x01`, found by search over b (R127, R128); none for
`a = 0`, where the command raises DomainError (U2). Log entry 9. -/
def gfInverse (poly : Poly) (a : Byte) : Option Byte :=
  if a = gfZero then none
  else ((List.range 256).map (BitVec.ofNat 8)).find? fun b => decide (gfMul poly a b = gfOne)

/-- `div(a, b) = mul(a, inverse(b))`; none for `b = 0` (R131). -/
def gfDiv (poly : Poly) (a b : Byte) : Option Byte := (gfInverse poly b).map (gfMul poly a)

/-- `Σ` over field elements: repeated `add`, the empty sum is `zero()` (R9). -/
def gfSum (l : List Byte) : Byte := l.foldr gfAdd gfZero

/-- `horner(c, x)` (R161): the loop runs from the highest index down, so the fold is from the right. -/
def horner (poly : Poly) (c : List Byte) (x : Byte) : Byte :=
  c.foldr (fun cj acc => gfAdd (gfMul poly acc x) cj) gfZero

end Sys2Proof.Machine
end

