-- ==== Sys2Proof/Machine/Matrix.lean ====
section
/-! DEFINITION. Matrices over the field: the Vandermonde matrix (43_matrix.md R201), the Gauss-Jordan inverter without
pivoting (R203) and the matrix-times-vector step (42_decode.md R182). These are values of a command in flight (R54). -/

namespace Sys2Proof.Machine

/-- A square matrix of field elements, row by row (R200). -/
abbrev Mat := List (List Byte)

/-- The k×k matrix with `f r c` in row r, column c. -/
def matOf (k : Nat) (f : Nat → Nat → Byte) : Mat := (List.range k).map fun r => (List.range k).map (f r)

/-- `A[r][c]` (R200). -/
def entry (a : Mat) (r c : Nat) : Byte := (a.getD r []).getD c gfZero

/-- The identity `I_k` (R200). -/
def matOne (k : Nat) : Mat := matOf k fun r c => if r = c then gfOne else gfZero

/-- `(A·B)[r][c] = Σ_m mul(A[r][m], B[m][c])` (R200). -/
def matMul (poly : Poly) (k : Nat) (a b : Mat) : Mat :=
  matOf k fun r c => gfSum ((List.range k).map fun m => gfMul poly (entry a r m) (entry b m c))

/-- `V[i][j] = pow(x, j)`, where `x` is what the read of node i for column j finds (R183 step 5, R202). -/
def vandOf (poly : Poly) (k : Nat) (node : Nat → Nat → Byte) : Mat := matOf k fun i j => gfPow poly (node i j) j

/-- `vand(x, k)` (R201). -/
def vand (poly : Poly) (k : Nat) (x : Nat → Byte) : Mat := vandOf poly k fun i _ => x i

/-- Steps (b) and (c) of R203 on one of the two matrices: row i is scaled by `q`; from every other row j,
`coeff × row_i` is subtracted, with `coeff = tmp[j][i]` as it was before. Log entry 14. -/
def eliminate (poly : Poly) (k i : Nat) (q : Byte) (coeff : Nat → Byte) (a : Mat) : Mat :=
  matOf k fun j c =>
    if j = i then gfMul poly (entry a i c) q
    else gfSub (entry a j c) (gfMul poly (coeff j) (gfMul poly (entry a i c) q))

/-- One pivot of R203 on the pair (`tmp`, `inv`); none is SingularMatrix: the pivot is tested before `inverse` is
taken (R206). -/
def pivotStep (poly : Poly) (k : Nat) (w : Mat × Mat) (i : Nat) : Option (Mat × Mat) :=
  if entry w.1 i i = gfZero then none
  else (gfInverse poly (entry w.1 i i)).map fun q =>
    (eliminate poly k i q (fun j => entry w.1 j i) w.1, eliminate poly k i q (fun j => entry w.1 j i) w.2)

/-- `ginv(A, k)` (R203): the pivots 0..k-1 in order, on `tmp = A` and `inv = I_k`; none is SingularMatrix. -/
def ginv (poly : Poly) (k : Nat) (a : Mat) : Option Mat :=
  ((List.range k).foldlM (pivotStep poly k) (a, matOne k)).map (·.2)

/-- `recon(D, y)` (R182): `z[j] = Σ_x mul(D[j][x], y[x])`. -/
def recon (poly : Poly) (k : Nat) (d : Mat) (y : Nat → Byte) : List Byte :=
  (List.range k).map fun j => gfSum ((List.range k).map fun x => gfMul poly (entry d j x) (y x))

end Sys2Proof.Machine
end

