-- ==== Sys2Proof/Config.lean ====
section
/-! DEFINITION. What the spec leaves to the implementation or leaves open: the parameters `POLY` and `BASE`
(00_scope.md R6, 92 D2, D10) and the free values an unwritten memory cell reads as (10_state.md R56, 93 U1).
Every `opaque` constant here has no body, so no proof can learn its value. -/

namespace Sys2Proof

/-- The thirty irreducible polynomials of degree 8 over GF(2): the legal values of `POLY` (R122). -/
def Config.legalPolys : List Poly :=
  [0x11B, 0x11D, 0x12B, 0x12D, 0x139, 0x13F, 0x14D, 0x15F, 0x163, 0x165] ++
  [0x169, 0x171, 0x177, 0x17B, 0x187, 0x18B, 0x18D, 0x19F, 0x1A3, 0x1A9] ++
  [0x1B1, 0x1BD, 0x1C3, 0x1CF, 0x1D7, 0x1DD, 0x1E7, 0x1F3, 0x1F5, 0x1F9]

/-- Which of the thirty the block implements: OPEN (R6, D2). Log entry 1. -/
opaque Config.polyIndex : Fin 30

/-- The parameter `POLY`: one of the legal values, which one is not known (R6, R122). Log entry 1. -/
def Config.poly : Poly := Config.legalPolys.get (Config.polyIndex.cast rfl)

/-- The parameter `BASE`, the address at which the platform places cell offset 0: OPEN (R6, D10). Log entry 2. -/
opaque Config.base : Word

/-- Free value of an 8-bit cell that nothing has written since reset: what the read numbered `readNo` of
transaction number `tick` finds there (R56, U1: "any value per read"). Log entry 3. -/
opaque Config.freeByte : (tick readNo : Nat) → Byte

/-- Free value of a 16-bit cell (`SLEN`, `SBLEN`) that nothing has written since reset (R56, U1). Log entry 3. -/
opaque Config.freeHalf : (tick readNo : Nat) → Half

end Sys2Proof
end

