-- ==== Sys2Proof/Syntax.lean ====
section
/-! DEFINITION. The fifteen commands of RIDA-GF8, one constructor per row of spec/opcode_table.json (30_encoding.md R97). -/

namespace Sys2Proof

/-- A register number 0..15; all sixteen are legal in every register field (R100). -/
abbrev Reg := Fin 16

/-- The command set (R97). Immediates are natural numbers, "not sign-extended, not scaled" (R99); their ranges are
checked by `Instr.wellFormed`. Log entry 15. -/
inductive Instr where
  /-- `gfadd ed, ea, eb` (R133), format R. -/
  | gfadd (rd ra rb : Reg)
  /-- `gfsub ed, ea, eb` (R134), format R. -/
  | gfsub (rd ra rb : Reg)
  /-- `gfmul ed, ea, eb` (R135), format R. -/
  | gfmul (rd ra rb : Reg)
  /-- `gfdiv ed, ea, eb` (R136), format R. -/
  | gfdiv (rd ra rb : Reg)
  /-- `gfinv ed, ea` (R137), format U. -/
  | gfinv (rd ra : Reg)
  /-- `gfpow ed, ea, eb` (R138), format R. -/
  | gfpow (rd ra rb : Reg)
  /-- `gfzero ed` (R139), format D. -/
  | gfzero (rd : Reg)
  /-- `gfone ed` (R140), format D. -/
  | gfone (rd : Reg)
  /-- `gfpowi ed, ea, imm` (R141), format I. -/
  | gfpowi (rd ra : Reg) (imm8 : Nat)
  /-- `config n, k` (R221), format C. -/
  | config (n12 k12 : Nat)
  /-- `peval ed, ea` (R163), format U. -/
  | peval (rd ra : Reg)
  /-- `vand` (R202), format Z. -/
  | vand
  /-- `minv` (R204), format Z. -/
  | minv
  /-- `encode` (R165), format Z. -/
  | encode
  /-- `decode` (R183), format Z. -/
  | decode
  deriving DecidableEq, Repr

end Sys2Proof
end

