-- ==== Sys2Proof/Machine/State.lean ====
section
/-! DEFINITION. The state of RIDA-GF8 as plain data (10_state.md R20), the reasons a step can stop, and the state after
reset (R55, R56). `CMD` stores nothing (R41) and `irq` is a function of `ERR` and `CTRL` (R52), so neither is a field. -/

namespace Sys2Proof.Machine

/-- A memory of cells of width `w`: the cells written since reset, each with the value last written, at strictly
rising indices (`Memory.wf`). An index that is not listed has no value: nothing has written that cell since reset,
and a read of it gives a free value (R56, 93 U1). So no listed entry can equal what an unlisted cell reads as. -/
abbrev Memory (w : Nat) := List (Nat × BitVec w)

/-- The six errors (60_exceptions.md R231). Their codes are `CmdError.code`; code 7 has no constructor (R42, U9). -/
inductive CmdError where
  /-- Code 1, raised by CONFIG (R232). -/
  | configuration
  /-- Code 2, raised by DECODE (R233). -/
  | insufficientShares
  /-- Code 3, raised by DECODE (R234). -/
  | inconsistentShares
  /-- Code 4, raised by MINV and DECODE (R235). -/
  | singularMatrix
  /-- Code 5, raised by GFINV and GFDIV (R236). -/
  | domain
  /-- Code 6, raised by every illegal word (R237). -/
  | illegalCommand
  deriving DecidableEq, Repr

/-- What the outside world does at the block's pins, one event a step. A transaction carries the cell offset
`addr - BASE` (R61, U7; `HostEvent.readAt` and `HostEvent.writeAt` build it from an address). -/
inductive HostEvent where
  /-- `HostRead` (R61). -/
  | read (off : Word)
  /-- `HostWrite` (R62). -/
  | write (off data : Word)
  /-- The reset input is asserted and released (70_reset_and_hazards.md R270). -/
  | reset
  deriving DecidableEq, Repr

/-- The answer to one transaction (20_memory.md R60). -/
inductive Response where
  /-- A write answered `OK`. -/
  | ok
  /-- A read answered `OK` with this value. -/
  | okRead (value : Word)
  /-- The offset names no cell (R65); a read then returns no value (U8). -/
  | busError
  deriving DecidableEq, Repr

/-- The state. The fields down to `sbody` are the spec's; the last three are the model's own: the port's input list, its
answers and the number of the transaction (log entries 3, 5 and 6). -/
structure State where
  /-- `E[0..15]`, the element registers (R21). -/
  e : Vector Byte 16
  /-- `ERR` (R42): `none` is code 0, not faulted. Log entry 8. -/
  err : Option CmdError
  /-- `EINFO` (R43): the command word that faulted. -/
  einfo : Word
  /-- `CTRL` (R44): bit 0 is `IE`. -/
  ctrl : BitVec 1
  /-- `N` (R45): the configured number of shares. -/
  n : Byte
  /-- `K` (R46): the configured threshold. -/
  k : Byte
  /-- `LENGTH` (R47): the number of meaningful bytes of `DATA`. -/
  length : Half
  /-- `CHUNK` (R48): the chunk PEVAL evaluates. -/
  chunk : Half
  /-- `SCNT` (R49): the number of shares supplied to DECODE. -/
  scnt : Byte
  /-- `OLEN` (R50): the number of meaningful bytes of `OUT`. -/
  olen : Half
  /-- `POLY` (R51): the cell that reads the parameter; no step changes it. Log entry 1. -/
  poly : Poly
  /-- `X[0..254]`, the node vector (R29). -/
  x : Memory 8
  /-- `DATA[0..65535]`, the data buffer (R30). -/
  data : Memory 8
  /-- `OUT[0..65535]`, the output buffer (R31). -/
  out : Memory 8
  /-- `MA[r][c]`, the input matrix, at index 256·r + c (R32, R66). -/
  ma : Memory 8
  /-- `MB[r][c]`, the result matrix, at index 256·r + c (R33, R66). -/
  mb : Memory 8
  /-- `SID[s]`, the share ids (R34). -/
  sid : Memory 8
  /-- `SLEN[s]`, the original lengths (R34), 16 bits a cell. -/
  slen : Memory 16
  /-- `SBLEN[s]`, the body lengths (R34), 16 bits a cell. -/
  sblen : Memory 16
  /-- `SBODY[s][i]`, the bodies, at index 65536·s + i (R34, R66). -/
  sbody : Memory 8
  /-- MODEL'S OWN: what the host has still to do at the pins, first event first (R60, R287). -/
  pending : List HostEvent
  /-- MODEL'S OWN: the answers given so far, newest first (R60, R287). -/
  answers : List Response
  /-- MODEL'S OWN: counts the events performed, so that every read of an unwritten cell has a free value of its own. -/
  tick : Nat
  deriving DecidableEq, Repr

/-- Nothing stops this machine with a fault: "No behaviour of this hardware is `stuck`" (93), every command terminates
and every host write answers (R286), and the six errors are next states (R240). So there is no reason to name.
Log entry 4. -/
inductive Fault where
  deriving DecidableEq, Repr

/-- Why a step has no meaning. -/
inductive Refusal where
  /-- Raised by `exec`'s arm for an instruction without a meaning. Safe. No arm raises it now. -/
  | notModelled (mnemonic : String)
  deriving DecidableEq, Repr

/-- The state when reset is released (R55; memories unwritten, R56). `POLY` reads the parameter. The port's input
list and answers are empty and the event count is 0 (log entries 3, 5 and 6). -/
def State.reset : State where
  e := Vector.replicate 16 0
  err := none
  einfo := 0
  ctrl := 0
  n := 1
  k := 1
  length := 0
  chunk := 0
  scnt := 0
  olen := 0
  poly := Config.poly
  x := []
  data := []
  out := []
  ma := []
  mb := []
  sid := []
  slen := []
  sblen := []
  sbody := []
  pending := []
  answers := []
  tick := 0

end Sys2Proof.Machine
end

