-- ==== Sys2Proof/Machine/Ops.lean ====
section
/-! DEFINITION. The shared operations over memories, registers and the port, the fault sequence and its clearing. -/

namespace Sys2Proof.Machine

/-- The value of a cell, if anything has written it since reset. -/
def Memory.read {w : Nat} : Memory w → Nat → Option (BitVec w)
  | [], _ => none
  | (i, v) :: m, a => if a = i then some v else Memory.read m a

/-- The memory after a store to index `a`. -/
def Memory.write {w : Nat} : Memory w → Nat → BitVec w → Memory w
  | [], a, v => [(a, v)]
  | (i, u) :: m, a, v =>
    if a < i then (a, v) :: (i, u) :: m
    else if a = i then (a, v) :: m
    else (i, u) :: Memory.write m a v

/-- The memory after a list of stores, done in order. -/
def Memory.writeAll {w : Nat} (m : Memory w) (stores : List (Nat × BitVec w)) : Memory w :=
  stores.foldl (fun m c => Memory.write m c.1 c.2) m

/-- The canonical form: strictly rising indices. -/
abbrev Memory.wf {w : Nat} (m : Memory w) : Prop := m.Pairwise fun c d => c.1 < d.1

/-- Index of row `r`, column `c` of `MA` or `MB`: the row stride is 256 (R66). -/
def matIndex (r c : Nat) : Nat := 256 * r + c

/-- Index of byte `i` of the body in slot `s`: the slot stride is 65536 (R66). -/
def bodyIndex (s i : Nat) : Nat := 65536 * s + i

/-- `E[r]` (R10, R21). -/
def State.getE (s : State) (r : Reg) : Byte := s.e[r]

/-- `E[r] <- v` (R10, R21): no register is hardwired. -/
def State.setE (s : State) (r : Reg) (v : Byte) : State := { s with e := s.e.set r v }

/-- `N <- n; K <- k` (R221). -/
def State.setConfig (s : State) (n k : Byte) : State := { s with n := n, k := k }

/-- Stores to `MA` (R202). -/
def State.storeMa (s : State) (cells : List (Nat × Byte)) : State := { s with ma := Memory.writeAll s.ma cells }

/-- Stores to `MB` (R204). -/
def State.storeMb (s : State) (cells : List (Nat × Byte)) : State := { s with mb := Memory.writeAll s.mb cells }

/-- Stores to `OUT`, and `OLEN <- len` (R183). -/
def State.storeOut (s : State) (cells : List (Nat × Byte)) (len : Half) : State :=
  { s with out := Memory.writeAll s.out cells, olen := len }

/-- Stores to the four memories of the share table (R165). -/
def State.storeShares (s : State) (ids : List (Nat × Byte)) (lens blens : List (Nat × Half))
    (bodies : List (Nat × Byte)) : State :=
  { s with
    sid := Memory.writeAll s.sid ids
    slen := Memory.writeAll s.slen lens
    sblen := Memory.writeAll s.sblen blens
    sbody := Memory.writeAll s.sbody bodies }

/-- TAKING AN ERROR: the fault sequence (60_exceptions.md R240), `ERR <- e; EINFO <- w` and nothing else. No mode
changes, nothing is saved and no control is transferred: "there is no handler inside the block". -/
def State.raise (s : State) (e : CmdError) (w : Word) : State := { s with err := some e, einfo := w }

/-- RETURNING FROM IT: clearing the fault (R244), `ERR <- 0; EINFO <- 0`; "Nothing else is restored". -/
def State.clearFault (s : State) : State := { s with err := none, einfo := 0 }

/-- The port answers a transaction (R60). -/
def State.answer (s : State) (a : Response) : State := { s with answers := a :: s.answers }

/-- The port takes its next event: the rest stay pending and the event count rises by one (log entry 3). -/
def State.takeEvent (s : State) (rest : List HostEvent) : State := { s with pending := rest, tick := s.tick + 1 }

/-- Reset (70_reset_and_hazards.md R270): the state of R55 and R56. `POLY` is the parameter and stays; the host's own
list of events and the answers it has had are no state of the block; the event count goes on, so that what an
unwritten memory reads as after this reset is not what it read as before (log entries 3 and 7). -/
def State.afterReset (s : State) : State :=
  { State.reset with poly := s.poly, pending := s.pending, answers := s.answers, tick := s.tick }

end Sys2Proof.Machine
end

