-- ==== Sys2Proof/Machine/Operands.lean ====
section
/-! DEFINITION. The implicit operands of the commands: how a command reads a memory cell by index (20_memory.md R73), the
coefficient vector of a chunk (41_encode.md R162), and the matrices and share fields a command reads. -/

namespace Sys2Proof.Machine

/-- Number of a read within one command, from the loop position it stands at, so that no two reads of one command
share a free value (R56: "two reads of the same unwritten cell need not agree"; log entry 3). -/
def readNo (phase i j : Nat) : Nat := (phase * 65536 + i) * 256 + j

/-- What read number `no` of the current transaction finds in cell `a` of an 8-bit memory: the value last written,
or a free value where nothing has written the cell since reset (R56, R273, U1). It is never an error. -/
def State.byteAt (s : State) (m : Memory 8) (a no : Nat) : Byte := (Memory.read m a).getD (Config.freeByte s.tick no)

/-- The same for a 16-bit memory (`SLEN`, `SBLEN`). -/
def State.halfAt (s : State) (m : Memory 16) (a no : Nat) : Half := (Memory.read m a).getD (Config.freeHalf s.tick no)

/-- `ceil(L / K) = (L + K - 1) div K`, in the naturals (R8, R142). `K = 0` is outside R57 (log entry 13). -/
def ceilDiv (l k : Nat) : Nat := (l + k - 1) / k

/-- `coef(c)[j]` (R162): `DATA[c·K + j]` below `LENGTH`, else `0x00`. -/
def coefByte (s : State) (phase c j : Nat) : Byte :=
  if c * s.k.toNat + j < s.length.toNat then s.byteAt s.data (c * s.k.toNat + j) (readNo phase c j) else gfZero

/-- `coef(c)`, the coefficient vector of chunk c (R162). -/
def coef (s : State) (phase c : Nat) : List Byte := (List.range s.k.toNat).map (coefByte s phase c)

/-- The nodes VAND reads: `X[i]`, for column j (R202). -/
def nodeByte (s : State) (i j : Nat) : Byte := s.byteAt s.x i (readNo 0 i j)

/-- The corner of `MA` that MINV reads (R204). -/
def maCorner (s : State) : Mat := matOf s.k.toNat fun r c => s.byteAt s.ma (matIndex r c) (readNo 0 r c)

/-- The stores of a matrix corner, row by row (R202, R204). -/
def cornerStores (k : Nat) (a : Mat) : List (Nat × Byte) :=
  (List.range k).flatMap fun r => (List.range k).map fun c => (matIndex r c, entry a r c)

/-- `B = ceil(LENGTH / K)`, the body length ENCODE gives every share (R160, R165). -/
def bodyLen (s : State) : Nat := ceilDiv s.length.toNat s.k.toNat

/-- The body byte c of the share with id `x`: `horner(coef(c), x)` (R165). -/
def shareByte (s : State) (x c : Nat) : Byte := horner s.poly (coef s x c) (BitVec.ofNat 8 x)

end Sys2Proof.Machine
end

