-- ==== Sys2Proof/Machine/Evaluator.lean ====
section
/-! DEFINITION. The Vandermonde polynomial evaluator and share creation (41_encode.md): PEVAL and ENCODE. -/

namespace Sys2Proof.Machine

/-- PEVAL (R163): one evaluation of chunk `CHUNK` at the point `E[ra]`; total. -/
def execPeval (rd ra : Reg) (s : State) : Host.Outcome State Fault Refusal :=
  .next (s.setE rd (horner s.poly (coef s 0 s.chunk.toNat) (s.getE ra)))

/-- `SID[s] <- s + 1` for the slots 0..N-1 (R165). -/
def idStores (s : State) : List (Nat × Byte) :=
  (List.range s.n.toNat).map fun slot => (slot, BitVec.ofNat 8 (slot + 1))

/-- `SLEN[s] <- L` for the slots 0..N-1 (R165). -/
def lenStores (s : State) : List (Nat × Half) := (List.range s.n.toNat).map fun slot => (slot, s.length)

/-- `SBLEN[s] <- B` for the slots 0..N-1 (R165). -/
def bodyLenStores (s : State) : List (Nat × Half) :=
  (List.range s.n.toNat).map fun slot => (slot, BitVec.ofNat 16 (bodyLen s))

/-- `SBODY[s][c] <- horner(coef(c), s + 1)` for the slots 0..N-1 and the chunks 0..B-1 (R165). -/
def bodyStores (s : State) : List (Nat × Byte) :=
  (List.range s.n.toNat).flatMap fun slot =>
    (List.range (bodyLen s)).map fun c => (bodyIndex slot c, shareByte s (slot + 1) c)

/-- ENCODE (R165): slot x - 1 gets the share with id x, for x in 1..N; total. -/
def execEncode (s : State) : Host.Outcome State Fault Refusal :=
  .next (s.storeShares (idStores s) (lenStores s) (bodyLenStores s) (bodyStores s))

end Sys2Proof.Machine
end

