-- ==== Sys2Proof/WellFormed.lean ====
section
/-! DEFINITION. Which commands can be written as a command word: the immediates fit their fields (30_encoding.md R93,
R95, R99). Register numbers fit by their type (R100). -/

namespace Sys2Proof

/-- The ranges of R99: `imm8` is 0..255, `n12` and `k12` are 0..4095. -/
def Instr.wellFormed : Instr → Bool
  | .gfadd _ _ _ => true
  | .gfsub _ _ _ => true
  | .gfmul _ _ _ => true
  | .gfdiv _ _ _ => true
  | .gfinv _ _ => true
  | .gfpow _ _ _ => true
  | .gfzero _ => true
  | .gfone _ => true
  | .gfpowi _ _ imm8 => decide (imm8 < 256)
  | .config n12 k12 => decide (n12 < 4096) && decide (k12 < 4096)
  | .peval _ _ => true
  | .vand => true
  | .minv => true
  | .encode => true
  | .decode => true

end Sys2Proof
end

