-- ==== Sys2Proof/Decode.lean ====
section
/-! DEFINITION. The command decoder and encoder (30_encoding.md R90 to R104). A command is one 32-bit word, the data of a
host write to cell `CMD`; bits 31..24 are the opcode, which fixes the format of the other 24 bits. -/

namespace Sys2Proof

/-- `w[hi:lo]`, the slice of bits hi down to lo, as an unsigned number (00_scope.md R8). -/
def slice (w : Word) (hi lo : Nat) : Nat := w.toNat / 2 ^ lo % 2 ^ (hi + 1 - lo)

/-- A 4-bit register field whose top bit is `hi` (R100). -/
def regField (w : Word) (hi : Nat) : Reg := Fin.ofNat 16 (slice w hi (hi - 3))

/-- Why a word is illegal (R98, R101). Both raise `IllegalCommand`. -/
inductive DecodeError where
  /-- The opcode is none of the fifteen of R97. -/
  | unassignedOpcode
  /-- The opcode is assigned and the format's `zero` field is not 0. -/
  | nonzeroZeroField
  deriving DecidableEq, Repr

/-- `i`, if the format's `zero` field `w[hi:lo]` is 0 (R98). -/
def requireZero (w : Word) (hi lo : Nat) (i : Instr) : Except DecodeError Instr :=
  if slice w hi lo = 0 then .ok i else .error .nonzeroZeroField

/-- Decoding (R98): the opcode, then the format's `zero` field, then the operand fields (R99, R100). -/
def decode (w : Word) : Except DecodeError Instr :=
  match slice w 31 24 with
  | 0x10 => requireZero w 11 0 (.gfadd (regField w 23) (regField w 19) (regField w 15))
  | 0x11 => requireZero w 11 0 (.gfsub (regField w 23) (regField w 19) (regField w 15))
  | 0x12 => requireZero w 11 0 (.gfmul (regField w 23) (regField w 19) (regField w 15))
  | 0x13 => requireZero w 11 0 (.gfdiv (regField w 23) (regField w 19) (regField w 15))
  | 0x14 => requireZero w 15 0 (.gfinv (regField w 23) (regField w 19))
  | 0x15 => requireZero w 11 0 (.gfpow (regField w 23) (regField w 19) (regField w 15))
  | 0x16 => requireZero w 19 0 (.gfzero (regField w 23))
  | 0x17 => requireZero w 19 0 (.gfone (regField w 23))
  | 0x18 => requireZero w 15 8 (.gfpowi (regField w 23) (regField w 19) (slice w 7 0))
  | 0x20 => .ok (.config (slice w 23 12) (slice w 11 0))
  | 0x21 => requireZero w 15 0 (.peval (regField w 23) (regField w 19))
  | 0x22 => requireZero w 23 0 .vand
  | 0x23 => requireZero w 23 0 .minv
  | 0x24 => requireZero w 23 0 .encode
  | 0x25 => requireZero w 23 0 .decode
  | _ => .error .unassignedOpcode

/-- What the decoder reads from a word numbered as spec/opcode_table.json numbers it; bits at `nbits` and above are 0. -/
def decodeTableWord (nbits w : Nat) : Option Instr := (decode (BitVec.ofNat 32 (w % 2 ^ nbits))).toOption

/-- The word with opcode `op` and the 24 operand bits `rest` (R90). -/
def commandWord (op rest : Nat) : Word := BitVec.ofNat 32 (op * 2 ^ 24 + rest)

/-- Format R (R91). -/
def formatR (op : Nat) (rd ra rb : Reg) : Word :=
  commandWord op (rd.val * 2 ^ 20 + ra.val * 2 ^ 16 + rb.val * 2 ^ 12)

/-- Format U (R92). -/
def formatU (op : Nat) (rd ra : Reg) : Word := commandWord op (rd.val * 2 ^ 20 + ra.val * 2 ^ 16)

/-- Format I (R93). -/
def formatI (op : Nat) (rd ra : Reg) (imm8 : Nat) : Word :=
  commandWord op (rd.val * 2 ^ 20 + ra.val * 2 ^ 16 + imm8 % 2 ^ 8)

/-- Format D (R94). -/
def formatD (op : Nat) (rd : Reg) : Word := commandWord op (rd.val * 2 ^ 20)

/-- Format C (R95). -/
def formatC (op n12 k12 : Nat) : Word := commandWord op (n12 % 2 ^ 12 * 2 ^ 12 + k12 % 2 ^ 12)

/-- Format Z (R96). -/
def formatZ (op : Nat) : Word := commandWord op 0

/-- The command word of an instruction (R97, R104); of an ill-formed one, its immediates cut to their fields. -/
def encode : Instr → Word
  | .gfadd rd ra rb => formatR 0x10 rd ra rb
  | .gfsub rd ra rb => formatR 0x11 rd ra rb
  | .gfmul rd ra rb => formatR 0x12 rd ra rb
  | .gfdiv rd ra rb => formatR 0x13 rd ra rb
  | .gfinv rd ra => formatU 0x14 rd ra
  | .gfpow rd ra rb => formatR 0x15 rd ra rb
  | .gfzero rd => formatD 0x16 rd
  | .gfone rd => formatD 0x17 rd
  | .gfpowi rd ra imm8 => formatI 0x18 rd ra imm8
  | .config n12 k12 => formatC 0x20 n12 k12
  | .peval rd ra => formatU 0x21 rd ra
  | .vand => formatZ 0x22
  | .minv => formatZ 0x23
  | .encode => formatZ 0x24
  | .decode => formatZ 0x25

/-- One row of the opcode map of R97. -/
structure OpcodeRow where
  mnemonic : String
  matchBits : Word
  mask : Word
  deriving DecidableEq, Repr

/-- "a word w is the command exactly when w & mask == match" (R97). -/
def rowMatches (row : OpcodeRow) (w : Word) : Bool := w &&& row.mask == row.matchBits

/-- The opcode map (R97), as match and mask. -/
def opcodeTable : List OpcodeRow :=
  [⟨"GFADD", 0x10000000, 0xFF000FFF⟩, ⟨"GFSUB", 0x11000000, 0xFF000FFF⟩, ⟨"GFMUL", 0x12000000, 0xFF000FFF⟩,
   ⟨"GFDIV", 0x13000000, 0xFF000FFF⟩, ⟨"GFINV", 0x14000000, 0xFF00FFFF⟩, ⟨"GFPOW", 0x15000000, 0xFF000FFF⟩,
   ⟨"GFZERO", 0x16000000, 0xFF0FFFFF⟩, ⟨"GFONE", 0x17000000, 0xFF0FFFFF⟩, ⟨"GFPOWI", 0x18000000, 0xFF00FF00⟩] ++
  [⟨"CONFIG", 0x20000000, 0xFF000000⟩, ⟨"PEVAL", 0x21000000, 0xFF00FFFF⟩, ⟨"VAND", 0x22000000, 0xFFFFFFFF⟩,
   ⟨"MINV", 0x23000000, 0xFFFFFFFF⟩, ⟨"ENCODE", 0x24000000, 0xFFFFFFFF⟩, ⟨"DECODE", 0x25000000, 0xFFFFFFFF⟩]

/-- The instruction's mnemonic as R97 spells it. -/
def mnemonicOf : Instr → String
  | .gfadd _ _ _ => "GFADD"
  | .gfsub _ _ _ => "GFSUB"
  | .gfmul _ _ _ => "GFMUL"
  | .gfdiv _ _ _ => "GFDIV"
  | .gfinv _ _ => "GFINV"
  | .gfpow _ _ _ => "GFPOW"
  | .gfzero _ => "GFZERO"
  | .gfone _ => "GFONE"
  | .gfpowi _ _ _ => "GFPOWI"
  | .config _ _ => "CONFIG"
  | .peval _ _ => "PEVAL"
  | .vand => "VAND"
  | .minv => "MINV"
  | .encode => "ENCODE"
  | .decode => "DECODE"

end Sys2Proof
end

