-- ==== Sys2Proof/Machine/FieldCmds.lean ====
section
/-! DEFINITION. The nine field commands (40_field.md R133 to R141). All sources are read before the destination is written
(R132); a command that raises writes no element register. -/

namespace Sys2Proof.Machine

/-- `E[rd] <- v`, or DomainError for command `i` where the field operation is not defined (R136, R137). -/
def writeOrDomainError (s : State) (rd : Reg) (v : Option Byte) (i : Instr) : State :=
  match v with
  | some v => s.setE rd v
  | none => s.raise .domain (encode i)

/-- GFADD (R133). -/
def execGfadd (rd ra rb : Reg) (s : State) : Host.Outcome State Fault Refusal :=
  .next (s.setE rd (gfAdd (s.getE ra) (s.getE rb)))

/-- GFSUB (R134). -/
def execGfsub (rd ra rb : Reg) (s : State) : Host.Outcome State Fault Refusal :=
  .next (s.setE rd (gfSub (s.getE ra) (s.getE rb)))

/-- GFMUL (R135). -/
def execGfmul (rd ra rb : Reg) (s : State) : Host.Outcome State Fault Refusal :=
  .next (s.setE rd (gfMul s.poly (s.getE ra) (s.getE rb)))

/-- GFDIV (R136): DomainError when the divisor is `0x00`. -/
def execGfdiv (rd ra rb : Reg) (s : State) : Host.Outcome State Fault Refusal :=
  .next (writeOrDomainError s rd (gfDiv s.poly (s.getE ra) (s.getE rb)) (.gfdiv rd ra rb))

/-- GFINV (R137): DomainError when the source is `0x00`. -/
def execGfinv (rd ra : Reg) (s : State) : Host.Outcome State Fault Refusal :=
  .next (writeOrDomainError s rd (gfInverse s.poly (s.getE ra)) (.gfinv rd ra))

/-- GFPOW (R138): the exponent register is read as a natural number (R121). -/
def execGfpow (rd ra rb : Reg) (s : State) : Host.Outcome State Fault Refusal :=
  .next (s.setE rd (gfPow s.poly (s.getE ra) (s.getE rb).toNat))

/-- GFZERO (R139). -/
def execGfzero (rd : Reg) (s : State) : Host.Outcome State Fault Refusal := .next (s.setE rd gfZero)

/-- GFONE (R140). -/
def execGfone (rd : Reg) (s : State) : Host.Outcome State Fault Refusal := .next (s.setE rd gfOne)

/-- GFPOWI (R141). -/
def execGfpowi (rd ra : Reg) (imm8 : Nat) (s : State) : Host.Outcome State Fault Refusal :=
  .next (s.setE rd (gfPow s.poly (s.getE ra) imm8))

end Sys2Proof.Machine
end

