-- ==== Sys2Proof/Machine/Inverter.lean ====
section
/-! DEFINITION. The matrix commands (43_matrix.md): VAND and MINV. Only the K×K corner is touched (R200). -/

namespace Sys2Proof.Machine

/-- VAND (R202): the corner of `MA` becomes `vand(X, K)`; nodes are not tested. -/
def execVand (s : State) : Host.Outcome State Fault Refusal :=
  .next (s.storeMa (cornerStores s.k.toNat (vandOf s.poly s.k.toNat (nodeByte s))))

/-- MINV (R204): the corner of `MB` becomes the inverse of the corner of `MA`, or SingularMatrix at a zero pivot and
then no cell of `MB` is written. -/
def execMinv (s : State) : Host.Outcome State Fault Refusal :=
  .next (match ginv s.poly s.k.toNat (maCorner s) with
    | some r => s.storeMb (cornerStores s.k.toNat r)
    | none => s.raise .singularMatrix (encode .minv))

end Sys2Proof.Machine
end

