-- ==== Sys2Proof/Machine/Reconstruct.lean ====
section
/-! DEFINITION. Reconstruction (42_decode.md R180 to R195): DECODE. The functions below are the steps of R183, in order; each
names the read it makes, so that a cell nothing has written gives a free value per read (R56, U1). -/

namespace Sys2Proof.Machine

/-- `L`, `SLEN[0]` as step 2 reads it first. -/
def firstLen (s : State) : Half := s.halfAt s.slen 0 (readNo 0 0 0)

/-- `B`, `SBLEN[0]` as step 2 reads it first. -/
def firstBodyLen (s : State) : Half := s.halfAt s.sblen 0 (readNo 1 0 0)

/-- Step 2: a supplied slot whose length or body length is not that of slot 0. -/
def lengthsDisagree (s : State) : Bool :=
  (List.range s.scnt.toNat).any fun i =>
    s.halfAt s.slen i (readNo 2 0 i) != firstLen s || s.halfAt s.sblen i (readNo 3 0 i) != firstBodyLen s

/-- Step 3, first test: a supplied slot whose id is above `N`. -/
def idAboveN (s : State) : Bool :=
  (List.range s.scnt.toNat).any fun i => decide ((s.byteAt s.sid i (readNo 0 0 i)).toNat > s.n.toNat)

/-- Step 3, second test: the common body length is not `ceil(L / K)`. -/
def bodyLenWrong (s : State) : Bool :=
  decide ((firstBodyLen s).toNat ≠ ceilDiv (firstLen s).toNat s.k.toNat)

/-- Step 4: a selected slot whose id is `0x00`. -/
def selectedIdZero (s : State) : Bool :=
  (List.range s.k.toNat).any fun i => s.byteAt s.sid i (readNo 1 0 i) == gfZero

/-- Step 5: `V[i][j] = pow(SID[i], j)` over the selected slots. -/
def decodeVand (s : State) : Mat := vandOf s.poly s.k.toNat fun i j => s.byteAt s.sid i (readNo 2 i j)

/-- Step 7: `y[x] = SBODY[x][i]`, the bytes of chunk position i. -/
def bodyColumn (s : State) (i x : Nat) : Byte := s.byteAt s.sbody (bodyIndex x i) (readNo 3 i x)

/-- Step 7: `OUT[i·K + j] <- z[j]`, skipping the indices at or above L, for the chunk positions 0..B-1. -/
def outStores (s : State) (d : Mat) : List (Nat × Byte) :=
  (List.range (firstBodyLen s).toNat).flatMap fun i =>
    let z := recon s.poly s.k.toNat d (bodyColumn s i)
    (List.range s.k.toNat).filterMap fun j =>
      if i * s.k.toNat + j < (firstLen s).toNat then some (i * s.k.toNat + j, z.getD j gfZero) else none

/-- Steps 1 to 6 in their order: the error, or the decode matrix D (R183, R187). -/
def decodeMatrix (s : State) : Except CmdError Mat :=
  if s.scnt.toNat < s.k.toNat then .error .insufficientShares
  else if lengthsDisagree s then .error .inconsistentShares
  else if idAboveN s then .error .inconsistentShares
  else if bodyLenWrong s then .error .inconsistentShares
  else if selectedIdZero s then .error .singularMatrix
  else match ginv s.poly s.k.toNat (decodeVand s) with
    | none => .error .singularMatrix
    | some d => .ok d

/-- DECODE (R183): every check precedes every write, so one that raises leaves `OUT` and `OLEN` as they were (R188). -/
def execDecode (s : State) : Host.Outcome State Fault Refusal :=
  .next (match decodeMatrix s with
    | .ok d => s.storeOut (outStores s d) (firstLen s)
    | .error e => s.raise e (encode .decode))

end Sys2Proof.Machine
end

