-- ==== Sys2Proof/Machine/System.lean ====
section
/-! DEFINITION. The configuration command (44_system.md R220 to R224). -/

namespace Sys2Proof.Machine

/-- A configuration (n, k) is valid exactly when `1 <= k <= n <= 255` (R220); these are the three tests of R221. -/
def configInvalid (n k : Nat) : Bool := decide (k = 0) || decide (k > n) || decide (n ≥ 256)

/-- CONFIG (R221): ConfigurationError for an invalid pair, which leaves `N` and `K` as they were. -/
def execConfig (n12 k12 : Nat) (s : State) : Host.Outcome State Fault Refusal :=
  .next (if configInvalid n12 k12 then s.raise .configuration (encode (.config n12 k12))
    else s.setConfig (BitVec.ofNat 8 n12) (BitVec.ofNat 8 k12))

end Sys2Proof.Machine
end

