-- ==== Sys2Proof/Machine/Dispatch.lean ====
section
/-! DEFINITION. One arm per command (30_encoding.md R97): the command's own rule, run on a state whose engine is not
faulted. The test for a faulted engine stands in `issue` (60_exceptions.md R242). -/

namespace Sys2Proof.Machine

def exec (i : Instr) (s : State) : Host.Outcome State Fault Refusal :=
  match i with
  | .gfadd rd ra rb => Sys2Proof.Machine.execGfadd rd ra rb s
  | .gfsub rd ra rb => Sys2Proof.Machine.execGfsub rd ra rb s
  | .gfmul rd ra rb => Sys2Proof.Machine.execGfmul rd ra rb s
  | .gfdiv rd ra rb => Sys2Proof.Machine.execGfdiv rd ra rb s
  | .gfinv rd ra => Sys2Proof.Machine.execGfinv rd ra s
  | .gfpow rd ra rb => Sys2Proof.Machine.execGfpow rd ra rb s
  | .gfzero rd => Sys2Proof.Machine.execGfzero rd s
  | .gfone rd => Sys2Proof.Machine.execGfone rd s
  | .gfpowi rd ra imm8 => Sys2Proof.Machine.execGfpowi rd ra imm8 s
  | .config n12 k12 => Sys2Proof.Machine.execConfig n12 k12 s
  | .peval rd ra => Sys2Proof.Machine.execPeval rd ra s
  | .vand => Sys2Proof.Machine.execVand s
  | .minv => Sys2Proof.Machine.execMinv s
  | .encode => Sys2Proof.Machine.execEncode s
  | .decode => Sys2Proof.Machine.execDecode s

end Sys2Proof.Machine
end

