-- ==== Sys2Proof/Machine/Flags.lean ====
section
/-! DEFINITION. There are no condition codes (10_state.md R27). The only status is the error code in `ERR`, the faulted
condition and the output `irq`. -/

namespace Sys2Proof.Machine

/-- The numbers of the errors (60_exceptions.md R231). -/
def CmdError.code : CmdError → BitVec 3
  | .configuration => 1
  | .insufficientShares => 2
  | .inconsistentShares => 3
  | .singularMatrix => 4
  | .domain => 5
  | .illegalCommand => 6

/-- What the cell `ERR` holds (R42). -/
def errCode : Option CmdError → BitVec 3
  | none => 0
  | some e => e.code

/-- "The engine is faulted exactly when ERR != 0" (R241). -/
def State.faulted (s : State) : Bool := s.err.isSome

/-- The output `irq`: 1 exactly when `CTRL.IE = 1` and `ERR != 0` (R52, R248). Log entry 16. -/
def State.irq (s : State) : Bool := s.ctrl.getLsbD 0 && s.faulted

end Sys2Proof.Machine
end

