-- ==== Sys2Proof/Machine/Bus.lean ====
section
/-! DEFINITION. The host bus (20_memory.md): the address map, the cell read and write, and the command issue procedure
(60_exceptions.md R242). -/

namespace Sys2Proof.Machine

/-- The cells of the address map (R66), one constructor per row. -/
inductive Cell where
  | cmd | err | einfo | ctrl | n | k | length | chunk | scnt | olen | poly
  | e (i : Reg)
  | x (i : Nat)
  | sid (s : Nat)
  | slen (s : Nat)
  | sblen (s : Nat)
  | data (i : Nat)
  | out (i : Nat)
  | ma (r c : Nat)
  | mb (r c : Nat)
  | sbody (s i : Nat)
  deriving DecidableEq, Repr

/-- "range of index" of the map (R66). -/
def Cell.inRange : Cell → Bool
  | .x i => decide (i < 255)
  | .sid s => decide (s < 255)
  | .slen s => decide (s < 255)
  | .sblen s => decide (s < 255)
  | .data i => decide (i < 65536)
  | .out i => decide (i < 65536)
  | .ma r c => decide (r < 255) && decide (c < 255)
  | .mb r c => decide (r < 255) && decide (c < 255)
  | .sbody s i => decide (s < 255) && decide (i < 65536)
  | _ => true

/-- "offset" of the map (R66). -/
def Cell.offset : Cell → Nat
  | .cmd => 0x0
  | .err => 0x1
  | .einfo => 0x2
  | .ctrl => 0x3
  | .n => 0x4
  | .k => 0x5
  | .length => 0x6
  | .chunk => 0x7
  | .scnt => 0x8
  | .olen => 0x9
  | .poly => 0xA
  | .e i => 0x10 + i.val
  | .x i => 0x100 + i
  | .sid s => 0x200 + s
  | .slen s => 0x300 + s
  | .sblen s => 0x400 + s
  | .data i => 0x10000 + i
  | .out i => 0x20000 + i
  | .ma r c => 0x30000 + 256 * r + c
  | .mb r c => 0x40000 + 256 * r + c
  | .sbody s i => 0x1000000 + 65536 * s + i

/-- "width" of the map, in bits (R63, R66). -/
def Cell.width : Cell → Nat
  | .cmd => 32
  | .err => 3
  | .einfo => 32
  | .ctrl => 1
  | .length => 16
  | .chunk => 16
  | .olen => 16
  | .poly => 9
  | .slen _ => 16
  | .sblen _ => 16
  | _ => 8

/-- The read-only cells (R62, R64). -/
def Cell.readOnly : Cell → Bool
  | .einfo => true
  | .n => true
  | .k => true
  | .olen => true
  | .poly => true
  | _ => false

/-- The control cell at an offset below 0x10 (R40); 0x0B to 0x0F are a hole (R67). -/
def controlCellAt : Nat → Option Cell
  | 0x0 => some .cmd
  | 0x1 => some .err
  | 0x2 => some .einfo
  | 0x3 => some .ctrl
  | 0x4 => some .n
  | 0x5 => some .k
  | 0x6 => some .length
  | 0x7 => some .chunk
  | 0x8 => some .scnt
  | 0x9 => some .olen
  | 0xA => some .poly
  | _ => none

/-- `c`, if its index is in range: index 255 of the small memories and row or column 255 of a matrix are holes (R67). -/
def ifInRange (c : Cell) : Option Cell := if c.inRange then some c else none

/-- The cell an offset names, if any (R66, R67). -/
def cellAt (off : Word) : Option Cell :=
  let o := off.toNat
  if o < 0x10 then controlCellAt o
  else if o < 0x20 then some (.e (Fin.ofNat 16 (o - 0x10)))
  else if o < 0x100 then none
  else if o < 0x200 then ifInRange (.x (o - 0x100))
  else if o < 0x300 then ifInRange (.sid (o - 0x200))
  else if o < 0x400 then ifInRange (.slen (o - 0x300))
  else if o < 0x500 then ifInRange (.sblen (o - 0x400))
  else if o < 0x10000 then none
  else if o < 0x20000 then some (.data (o - 0x10000))
  else if o < 0x30000 then some (.out (o - 0x20000))
  else if o < 0x40000 then ifInRange (.ma ((o - 0x30000) / 256) ((o - 0x30000) % 256))
  else if o < 0x50000 then ifInRange (.mb ((o - 0x40000) / 256) ((o - 0x40000) % 256))
  else if o < 0x1000000 then none
  else ifInRange (.sbody ((o - 0x1000000) / 65536) ((o - 0x1000000) % 65536))

/-- The content of a cell, zero-extended to 32 bits (R61, R63); a memory cell that nothing has written since reset
gives a free value (R56). -/
def readCell (s : State) : Cell → Word
  | .cmd => 0
  | .err => (errCode s.err).setWidth 32
  | .einfo => s.einfo
  | .ctrl => s.ctrl.setWidth 32
  | .n => s.n.setWidth 32
  | .k => s.k.setWidth 32
  | .length => s.length.setWidth 32
  | .chunk => s.chunk.setWidth 32
  | .scnt => s.scnt.setWidth 32
  | .olen => s.olen.setWidth 32
  | .poly => s.poly.setWidth 32
  | .e i => (s.getE i).setWidth 32
  | .x i => (s.byteAt s.x i 0).setWidth 32
  | .sid i => (s.byteAt s.sid i 0).setWidth 32
  | .slen i => (s.halfAt s.slen i 0).setWidth 32
  | .sblen i => (s.halfAt s.sblen i 0).setWidth 32
  | .data i => (s.byteAt s.data i 0).setWidth 32
  | .out i => (s.byteAt s.out i 0).setWidth 32
  | .ma r c => (s.byteAt s.ma (matIndex r c) 0).setWidth 32
  | .mb r c => (s.byteAt s.mb (matIndex r c) 0).setWidth 32
  | .sbody i j => (s.byteAt s.sbody (bodyIndex i j) 0).setWidth 32

/-- A host write to a cell other than `CMD` (R62): `ERR` clears the fault whatever the data, a read-only cell keeps its
value, any other cell keeps the low bits of the data. -/
def writeCell (s : State) (d : Word) : Cell → State
  | .cmd => s
  | .err => s.clearFault
  | .einfo => s
  | .ctrl => { s with ctrl := d.setWidth 1 }
  | .n => s
  | .k => s
  | .length => { s with length := d.setWidth 16 }
  | .chunk => { s with chunk := d.setWidth 16 }
  | .scnt => { s with scnt := d.setWidth 8 }
  | .olen => s
  | .poly => s
  | .e i => s.setE i (d.setWidth 8)
  | .x i => { s with x := Memory.write s.x i (d.setWidth 8) }
  | .sid i => { s with sid := Memory.write s.sid i (d.setWidth 8) }
  | .slen i => { s with slen := Memory.write s.slen i (d.setWidth 16) }
  | .sblen i => { s with sblen := Memory.write s.sblen i (d.setWidth 16) }
  | .data i => { s with data := Memory.write s.data i (d.setWidth 8) }
  | .out i => { s with out := Memory.write s.out i (d.setWidth 8) }
  | .ma r c => { s with ma := Memory.write s.ma (matIndex r c) (d.setWidth 8) }
  | .mb r c => { s with mb := Memory.write s.mb (matIndex r c) (d.setWidth 8) }
  | .sbody i j => { s with sbody := Memory.write s.sbody (bodyIndex i j) (d.setWidth 8) }

/-- Command issue (R242): a faulted engine discards the word undecoded; an illegal word raises IllegalCommand; any other
word is executed per its rule. -/
def issue (w : Word) (s : State) : Host.Outcome State Fault Refusal :=
  if s.faulted then .next s
  else match decode w with
    | .error _ => .next (s.raise .illegalCommand w)
    | .ok i => exec i s

/-- `HostRead` at an offset (R61, R65): no state of the block changes. -/
def busRead (off : Word) (s : State) : State :=
  match cellAt off with
  | none => s.answer .busError
  | some c => s.answer (.okRead (readCell s c))

/-- `HostWrite` at an offset (R62, R64, R65). The write to `CMD` answers `OK` whether the command succeeds, faults or is
discarded. -/
def busWrite (off d : Word) (s : State) : Host.Outcome State Fault Refusal :=
  match cellAt off with
  | none => .next (s.answer .busError)
  | some .cmd => issue d (s.answer .ok)
  | some c => .next ((writeCell s d c).answer .ok)

/-- One event at the pins, performed wholly (R26, R60, R71, R272). -/
def perform (ev : HostEvent) (s : State) : Host.Outcome State Fault Refusal :=
  match ev with
  | .read off => .next (busRead off s)
  | .write off d => busWrite off d s
  | .reset => .next s.afterReset

/-- The cell offset of a host address: `addr - BASE`, modulo 2^32 (R61). -/
def offsetOf (addr : Word) : Word := addr - Config.base

/-- `HostRead(addr)` as an event at the port (R61). -/
def HostEvent.readAt (addr : Word) : HostEvent := .read (offsetOf addr)

/-- `HostWrite(addr, data)` as an event at the port (R62). -/
def HostEvent.writeAt (addr d : Word) : HostEvent := .write (offsetOf addr) d

/-- The event that issues the command word of a table row, put before all others, on an engine that is not faulted (a
faulted one would discard it, R242). Log entry 5. -/
def issueNext (s : State) (w : Word) : State := { s.clearFault with pending := .write 0 w :: s.pending }

end Sys2Proof.Machine
end

