-- ==== Sys2Proof/Machine/Step.lean ====
section
/-! DEFINITION. One step: the next event of the host's finite list, performed wholly (70_reset_and_hazards.md R287). -/

namespace Sys2Proof.Machine

/-- One step. The engine never acts on its own (00_scope.md R15): with no event left, nothing happens (R287). Log
entries 5, 10 and 11. -/
def step (s : State) : Host.Outcome State Fault Refusal :=
  match s.pending with
  | [] => .next s
  | ev :: rest => perform ev (s.takeEvent rest)

/-- `s` with the command word `w` (bits at `nbits` and above 0) as the next thing the host writes to `CMD`. -/
def State.withFetchWord (s : State) (nbits w : Nat) : State := issueNext s (BitVec.ofNat 32 (w % 2 ^ nbits))

end Sys2Proof.Machine
end

