-- ==== Sys2Proof/Safety.lean ====
section
/-! DEFINITION. What counts as a legal state and a clean run, in the terms the statements use: the invariant of
10_state.md R57 with what else holds of every reachable state, which command can raise what (60_exceptions.md R238),
and what software must have written before a command (70_reset_and_hazards.md R273). -/

namespace Sys2Proof.Machine

/-- Which command can raise what, complete (R238). -/
def errorsOf : Instr → List CmdError
  | .gfadd _ _ _ => []
  | .gfsub _ _ _ => []
  | .gfmul _ _ _ => []
  | .gfdiv _ _ _ => [.domain]
  | .gfinv _ _ => [.domain]
  | .gfpow _ _ _ => []
  | .gfzero _ => []
  | .gfone _ => []
  | .gfpowi _ _ _ => []
  | .config _ _ => [.configuration]
  | .peval _ _ => []
  | .vand => []
  | .minv => [.singularMatrix]
  | .encode => []
  | .decode => [.insufficientShares, .inconsistentShares, .singularMatrix]

/-- The element register a command may write (R22). -/
def destination : Instr → Option Reg
  | .gfadd rd _ _ => some rd
  | .gfsub rd _ _ => some rd
  | .gfmul rd _ _ => some rd
  | .gfdiv rd _ _ => some rd
  | .gfinv rd _ => some rd
  | .gfpow rd _ _ => some rd
  | .gfzero rd => some rd
  | .gfone rd => some rd
  | .gfpowi rd _ _ => some rd
  | .config _ _ => none
  | .peval rd _ => some rd
  | .vand => none
  | .minv => none
  | .encode => none
  | .decode => none

/-- `1 <= K <= N <= 255` (R57); `N <= 255` by its width. -/
def configOk (s : State) : Prop := 1 ≤ s.k.toNat ∧ s.k.toNat ≤ s.n.toNat

/-- The cell `POLY` reads a legal value of the parameter (R122). -/
def polyOk (s : State) : Prop := s.poly ∈ Config.legalPolys

/-- The error the word `w` may have faulted on: IllegalCommand if it is illegal (R237), else one of its command's. -/
def wordMayRaise (w : Word) (e : CmdError) : Prop :=
  match decode w with
  | .error _ => e = .illegalCommand
  | .ok i => e ∈ errorsOf i

/-- `EINFO` is 0 when not faulted, and when faulted it is a word that can raise the error in `ERR` (R43, R238). -/
def errorOk (s : State) : Prop :=
  (s.err = none → s.einfo = 0) ∧ ∀ e, s.err = some e → wordMayRaise s.einfo e

/-- A memory is in canonical form and lists only indices that exist. -/
def memoryOk {w : Nat} (m : Memory w) (inArray : Nat → Bool) : Prop :=
  Memory.wf m ∧ ∀ c ∈ m, inArray c.1 = true

/-- Index 256·r + c with r, c in 0..254 (R66). -/
def matIndexOk (a : Nat) : Bool := decide (a / 256 < 255) && decide (a % 256 < 255)

/-- Every index any command or host write has stored to is inside its array (R73). -/
def memoriesOk (s : State) : Prop :=
  memoryOk s.x (fun a => decide (a < 255)) ∧ memoryOk s.data (fun a => decide (a < 65536)) ∧
  memoryOk s.out (fun a => decide (a < 65536)) ∧ memoryOk s.ma matIndexOk ∧ memoryOk s.mb matIndexOk ∧
  memoryOk s.sid (fun a => decide (a < 255)) ∧ memoryOk s.slen (fun a => decide (a < 255)) ∧
  memoryOk s.sblen (fun a => decide (a < 255)) ∧ memoryOk s.sbody (fun a => decide (a < 255 * 65536))

/-- The invariant of the machine. -/
def State.Inv (s : State) : Prop := configOk s ∧ polyOk s ∧ errorOk s ∧ memoriesOk s

/-- `DATA[i]` is written for every i below `LENGTH`: what ENCODE needs (R273). -/
def dataWritten (s : State) : Prop := ∀ i, i < s.length.toNat → (Memory.read s.data i).isSome = true

/-- Slot `i` of `s` holds a copy (id, length, body length and the `b` bytes of the body) of slot `j` of `t` (R193). -/
def slotCopies (b : Nat) (s : State) (i : Nat) (t : State) (j : Nat) : Prop :=
  Memory.read s.sid i = Memory.read t.sid j ∧ Memory.read s.slen i = Memory.read t.slen j ∧
  Memory.read s.sblen i = Memory.read t.sblen j ∧
  ∀ c, c < b → Memory.read s.sbody (bodyIndex i c) = Memory.read t.sbody (bodyIndex j c)

/-- A run has ended clean: no event is left, `ERR = 0` and no transaction answered `BusError` (R287). -/
def State.clean (s : State) : Prop := s.pending = [] ∧ s.err = none ∧ Response.busError ∉ s.answers

end Sys2Proof.Machine
end

