-- ==== Sys2Proof/Certificates/Slice0/Obligations.lean ====
section
/-! DEFINITION. The statements for the provers. Each docstring names the rule of spec/ it formalises. -/

namespace Sys2Proof.Machine

/-- What a completed transaction leaves beside its effect: the event is taken and `a` is answered. -/
def answered (s : State) (rest : List HostEvent) (a : Response) : State :=
  { s with pending := rest, tick := s.tick + 1, answers := a :: s.answers }

/-- `i` completes from `s` by writing `v` to `E[rd]`; every other register and the whole rest of the state (control
cells, every memory cell, the port) is as before. -/
def WritesElement (i : Instr) (rd : Reg) (v : Byte) (s : State) : Prop :=
  ∃ t, exec i s = .next t ∧ t.getE rd = v ∧ (∀ r, r ≠ rd → t.getE r = s.getE r) ∧ { t with e := s.e } = s

/-- The command word of `i`, as the rule of its command gives it. -/
def HasWord (i : Instr) (w : Nat) : Prop := (encode i).toNat = w

/-- `i` raises `err` from `s`: `ERR` and `EINFO` are written and nothing else (R239, R240). -/
def Raises (i : Instr) (err : CmdError) (s : State) : Prop :=
  exec i s = .next { s with err := some err, einfo := encode i }

/-- The registers and control cells have the values of R55; nothing is said of `POLY`. -/
def RegistersAtReset (t : State) : Prop :=
  (∀ r, t.getE r = 0x00) ∧ t.err = none ∧ t.einfo = 0 ∧ t.ctrl = 0 ∧ t.n = 1 ∧ t.k = 1 ∧ t.length = 0 ∧ t.chunk = 0 ∧
  t.scnt = 0 ∧ t.olen = 0 ∧ readCell t .cmd = 0 ∧ t.irq = false ∧ t.faulted = false

/-- No cell of any memory has a value: the way the model says that they are unspecified (R56; log entry 3). -/
def MemoriesUnwritten (t : State) : Prop :=
  ∀ a, Memory.read t.x a = none ∧ Memory.read t.data a = none ∧ Memory.read t.out a = none ∧
    Memory.read t.ma a = none ∧ Memory.read t.mb a = none ∧ Memory.read t.sid a = none ∧
    Memory.read t.slen a = none ∧ Memory.read t.sblen a = none ∧ Memory.read t.sbody a = none

/-- Coefficient of t^n in the product of two polynomials over GF(2): the parity of the number of i with a_i = 1 and
b_(n-i) = 1 (R120). Written without the model's own multiplication. -/
def productBit {v w : Nat} (a : BitVec v) (b : BitVec w) (n : Nat) : Bool :=
  ((List.range (n + 1)).countP fun i => a.getLsbD i && b.getLsbD (n - i)) % 2 == 1

/-- `Σ_{j=0..k-1} mul(c[j], pow(x, j))` (R161). -/
def polyValue (p : Poly) (k : Nat) (c : Nat → Byte) (x : Byte) : Byte :=
  gfSum ((List.range k).map fun j => gfMul p (c j) (gfPow p x j))

/-- `v` is `coef(c)` (R162), with any value where `DATA` is read and has not been written since reset (R56). -/
def ChunkCoefficients (s : State) (c : Nat) (v : Nat → Byte) : Prop :=
  ∀ j, j < s.k.toNat →
    (c * s.k.toNat + j < s.length.toNat → ∀ b, Memory.read s.data (c * s.k.toNat + j) = some b → v j = b) ∧
    (s.length.toNat ≤ c * s.k.toNat + j → v j = 0x00)

/-- `A·B = I_k`, entry by entry (R200). -/
def ProductIsOne (p : Poly) (k : Nat) (a b : Nat → Nat → Byte) : Prop :=
  ∀ r c, r < k → c < k →
    gfSum ((List.range k).map fun m => gfMul p (a r m) (b m c)) = if r = c then 0x01 else 0x00

/-- The supplied slots 0..SCNT-1 hold these ids, lengths and body lengths, and there are enough of them. -/
def Supplied (s : State) (id : Nat → Byte) (len blen : Nat → Half) : Prop :=
  1 ≤ s.k.toNat ∧ s.k.toNat ≤ s.scnt.toNat ∧
  ∀ i, i < s.scnt.toNat →
    Memory.read s.sid i = some (id i) ∧ Memory.read s.slen i = some (len i) ∧ Memory.read s.sblen i = some (blen i)

/-- Steps 2 and 3 of R183 find nothing to refuse. -/
def Consistent (s : State) (id : Nat → Byte) (len blen : Nat → Half) : Prop :=
  (∀ i, i < s.scnt.toNat → len i = len 0 ∧ blen i = blen 0 ∧ (id i).toNat ≤ s.n.toNat) ∧
  (blen 0).toNat = ((len 0).toNat + s.k.toNat - 1) / s.k.toNat

/-- `s` supplies a DECODE under the configuration of `enc` with at least K copies of slots of `enc`, slot `i` holding a
copy of slot `src i`, the first K of them from pairwise distinct slots (R193). -/
def SuppliesCopies (enc s : State) (src : Nat → Nat) : Prop :=
  s.n = enc.n ∧ s.k = enc.k ∧ s.poly = enc.poly ∧ s.k.toNat ≤ s.scnt.toNat ∧
  (∀ i, i < s.scnt.toNat → src i < enc.n.toNat ∧ slotCopies (bodyLen enc) s i enc (src i)) ∧
  ∀ i j, i < s.k.toNat → j < s.k.toNat → src i = src j → i = j

/-- The event is a bus transaction, which has an answer (R60). -/
def isTransaction : HostEvent → Bool
  | .read _ => true
  | .write _ _ => true
  | .reset => false

end Sys2Proof.Machine

open Sys2Proof Sys2Proof.Machine

/-! ### Encoding (30_encoding.md) -/

/-- R90 to R100: every well-formed command is what the decoder reads from its own word, all operands included. -/
def Obligations.DecodeOfEncode : Prop :=
  ∀ i : Instr, i.wellFormed = true → decode (encode i) = .ok i

/-- R97 to R100: a word the decoder accepts is the word of the command it reads, so no bit of it is dropped. -/
def Obligations.EncodeOfDecode : Prop :=
  ∀ (w : Word) (i : Instr), decode w = .ok i → i.wellFormed = true ∧ encode i = w

/-- R98, last sentence: w is illegal exactly when no row of R97 matches; and a legal word matches its command's row. -/
def Obligations.DecoderAgreesWithMatchAndMask : Prop :=
  ∀ w : Word,
    ((∃ e, decode w = .error e) ↔ ∀ row ∈ opcodeTable, rowMatches row w = false) ∧
    ∀ i, decode w = .ok i → ∃ row ∈ opcodeTable, row.mnemonic = mnemonicOf i ∧ rowMatches row w = true

/-- Words written out from the formats of R91 to R96 (and listed in 95_test_vectors.md section 2.1). -/
def Obligations.SpecWordsDecode : Prop :=
  decode 0x11312000 = .ok (.gfsub 3 1 2) ∧ decode 0x13423000 = .ok (.gfdiv 4 2 3) ∧
  decode 0x14100000 = .ok (.gfinv 1 0) ∧ decode 0x17A00000 = .ok (.gfone 10) ∧
  decode 0x183000FE = .ok (.gfpowi 3 0 254) ∧ decode 0x20007005 = .ok (.config 7 5) ∧
  decode 0x21FF0000 = .ok (.peval 15 15) ∧ decode 0x23000000 = .ok .minv ∧ decode 0x25000000 = .ok .decode ∧
  decode 0x12345001 = .error .nonzeroZeroField ∧ decode 0x19000000 = .error .unassignedOpcode

/-! ### Command issue and errors (60_exceptions.md) -/

/-- R242: on an engine that is not faulted, the word the host writes to `CMD` is executed per its command's rule inside
that write, which answers `OK` (R26, R64). -/
def Obligations.StepRunsDecodedCommand : Prop :=
  ∀ (s : State) (w : Word) (rest : List HostEvent) (i : Instr),
    s.pending = .write 0 w :: rest → s.err = none → decode w = .ok i → step s = exec i (answered s rest .ok)

/-- R101, R237: an illegal word raises IllegalCommand (code 6) and changes no other state. -/
def Obligations.IllegalWordRaises : Prop :=
  ∀ (s : State) (w : Word) (rest : List HostEvent) (why : DecodeError),
    s.pending = .write 0 w :: rest → s.err = none → decode w = .error why →
    step s = .next { answered s rest .ok with err := some .illegalCommand, einfo := w }

/-- R242: a faulted engine discards every word, legal or not: nothing changes, and the write answers `OK`. -/
def Obligations.FaultedEngineDiscards : Prop :=
  ∀ (s : State) (w : Word) (rest : List HostEvent),
    s.pending = .write 0 w :: rest → s.err ≠ none → step s = .next (answered s rest .ok)

/-- R238: which command can raise what, complete. -/
def Obligations.CommandErrorsAreListed : Prop :=
  ∀ (i : Instr) (s t : State) (e : CmdError),
    s.err = none → exec i s = .next t → t.err = some e → e ∈ errorsOf i

/-- R239, R240: a command that raises an error writes nothing but `ERR` and `EINFO`, and `EINFO` is its word. -/
def Obligations.FaultsArePrecise : Prop :=
  ∀ (i : Instr) (s t : State), s.err = none → exec i s = .next t → t.err ≠ none →
    ∃ e, t = { s with err := some e, einfo := encode i }

/-- R244: any host write to cell `ERR`, whatever the data, clears `ERR` and `EINFO` and nothing else; `irq` becomes 0. -/
def Obligations.WriteErrClearsFault : Prop :=
  ∀ (s : State) (d : Word) (rest : List HostEvent), s.pending = .write 1 d :: rest →
    ∃ t, step s = .next t ∧ t = { answered s rest .ok with err := none, einfo := 0 } ∧ t.irq = false

/-- R42, R52, R231, R241: the numbers `ERR` reads, of which 7 is never one; the engine is faulted exactly when `ERR` reads
other than 0, and `irq` is 1 exactly when `CTRL.IE` is 1 and the engine is faulted. -/
def Obligations.ErrorCodesAndIrq : Prop :=
  ∀ s : State,
    readCell { s with err := none } .err = 0 ∧ readCell { s with err := some .configuration } .err = 1 ∧
    readCell { s with err := some .insufficientShares } .err = 2 ∧
    readCell { s with err := some .inconsistentShares } .err = 3 ∧
    readCell { s with err := some .singularMatrix } .err = 4 ∧ readCell { s with err := some .domain } .err = 5 ∧
    readCell { s with err := some .illegalCommand } .err = 6 ∧ readCell s .err ≠ 7 ∧
    (s.faulted = true ↔ readCell s .err ≠ 0) ∧ (s.irq = true ↔ s.ctrl = 1 ∧ readCell s .err ≠ 0)

/-- R241: the engine becomes faulted only through the fault sequence of R240, in a write to `CMD` whose word is then in
`EINFO`, and nothing else changes; it leaves the condition only through R244 (a write to `ERR`, which changes nothing
else) or reset. R245: while it stays faulted neither `ERR` nor `EINFO` changes, so no second fault overwrites the first,
not even one with the same code. -/
def Obligations.FaultEntryAndExit : Prop :=
  ∀ s t : State, step s = .next t →
    (s.err = none → t.err ≠ none → ∃ rest, s.pending = .write 0 t.einfo :: rest ∧
      t = { answered s rest .ok with err := t.err, einfo := t.einfo }) ∧
    (s.err ≠ none → t.err ≠ s.err → t.err = none ∧ t.einfo = 0 ∧ ∃ rest,
      (∃ d, s.pending = .write 1 d :: rest ∧ t = { answered s rest .ok with err := none, einfo := 0 }) ∨
      s.pending = .reset :: rest) ∧
    (s.err ≠ none → t.err = s.err → t.einfo = s.einfo)

/-- R286: every command is a total function from the state to a new state, and the host write to `CMD` always answers
(`OK`, R64), whatever the word and whether or not the engine is faulted; every other step too gives a next state. With no
event left nothing happens (R15, R287); that the events are a list of State is the model's choice (log entry 5). -/
def Obligations.EveryStepAnswers : Prop :=
  (∀ (i : Instr) (s : State), ∃ t, exec i s = .next t) ∧ (∀ s : State, ∃ t, step s = .next t) ∧
  (∀ (s : State) (w : Word) (rest : List HostEvent), s.pending = .write 0 w :: rest →
    ∃ t, step s = .next t ∧ t.answers = .ok :: s.answers ∧ t.pending = rest) ∧
  ∀ s : State, s.pending = [] → step s = .next s

/-- R286, R287: a run over any finite list of events ends after that many steps with every transaction answered. -/
def Obligations.RunAnswersEveryTransaction : Prop :=
  ∀ s : State, ∃ t : State, Host.Core.run core s.pending.length s = .next t ∧ t.pending = [] ∧
    t.answers.length = s.answers.length + (s.pending.filter isTransaction).length

/-- R37: which command writes what, complete; whatever it does, it leaves `CTRL`, `LENGTH`, `CHUNK`, `SCNT`, `POLY`, `X`,
`DATA` and the port alone. -/
def Obligations.CommandsWriteOnlyTheirOwn : Prop :=
  ∀ (i : Instr) (s t : State), exec i s = .next t →
    t.ctrl = s.ctrl ∧ t.length = s.length ∧ t.chunk = s.chunk ∧ t.scnt = s.scnt ∧ t.poly = s.poly ∧ t.x = s.x ∧
    t.data = s.data ∧ t.pending = s.pending ∧ t.answers = s.answers ∧ t.tick = s.tick ∧
    (∀ r, t.getE r ≠ s.getE r → destination i = some r) ∧
    (t.n ≠ s.n ∨ t.k ≠ s.k → ∃ n k, i = .config n k) ∧
    (t.ma ≠ s.ma → i = .vand) ∧ (t.mb ≠ s.mb → i = .minv) ∧
    (t.sid ≠ s.sid ∨ t.slen ≠ s.slen ∨ t.sblen ≠ s.sblen ∨ t.sbody ≠ s.sbody → i = .encode) ∧
    (t.out ≠ s.out ∨ t.olen ≠ s.olen → i = .decode)

/-! ### The host bus (20_memory.md) -/

/-- R66: an offset names a cell exactly when a row of the map produces it. -/
def Obligations.AddressMap : Prop :=
  ∀ (off : Word) (c : Cell), cellAt off = some c ↔ c.inRange = true ∧ c.offset = off.toNat

/-- R67: the holes of the map, and that each access to one answers `BusError`. -/
def Obligations.AddressHoles : Prop :=
  (∀ (off d : Word) (s : State), cellAt off = none →
    busRead off s = s.answer .busError ∧ busWrite off d s = .next (s.answer .busError)) ∧
  ∀ off : Word, cellAt off = none ↔
    (0xB ≤ off.toNat ∧ off.toNat ≤ 0xF) ∨ (0x20 ≤ off.toNat ∧ off.toNat ≤ 0xFF) ∨ off.toNat = 0x1FF ∨
    off.toNat = 0x2FF ∨ off.toNat = 0x3FF ∨ off.toNat = 0x4FF ∨ (0x500 ≤ off.toNat ∧ off.toNat ≤ 0xFFFF) ∨
    (0x30000 ≤ off.toNat ∧ off.toNat ≤ 0x4FFFF ∧ off.toNat % 256 = 0xFF) ∨
    (0x3FF00 ≤ off.toNat ∧ off.toNat ≤ 0x3FFFF) ∨ (0x4FF00 ≤ off.toNat ∧ off.toNat ≤ 0x4FFFF) ∨
    (0x50000 ≤ off.toNat ∧ off.toNat ≤ 0xFFFFFF) ∨ 0x1FF0000 ≤ off.toNat

/-- R61: a read of an address whose offset names a cell answers `OK` with the cell's content, one whose offset names no
cell answers `BusError`; no state of the block changes. That `BusError` carries no value is log entry 12. -/
def Obligations.HostReadAnswers : Prop :=
  ∀ (s : State) (addr : Word) (rest : List HostEvent), s.pending = HostEvent.readAt addr :: rest →
    (∀ c, cellAt (addr - Config.base) = some c →
      step s = .next (answered s rest (.okRead (readCell (s.takeEvent rest) c)))) ∧
    (cellAt (addr - Config.base) = none → step s = .next (answered s rest .busError))

/-- R61, R63, R41: the content of a cell is its value zero-extended; `CMD` reads 0; `ERR` reads the code of the error
(R42; the numbers are in `ErrorCodesAndIrq`); a memory cell reads the value last written. -/
def Obligations.CellsReadTheirContent : Prop :=
  ∀ s : State,
    readCell s .cmd = 0 ∧ (readCell s .err).toNat = (errCode s.err).toNat ∧ readCell s .einfo = s.einfo ∧
    (readCell s .ctrl).toNat = s.ctrl.toNat ∧
    (readCell s .n).toNat = s.n.toNat ∧ (readCell s .k).toNat = s.k.toNat ∧
    (readCell s .length).toNat = s.length.toNat ∧ (readCell s .chunk).toNat = s.chunk.toNat ∧
    (readCell s .scnt).toNat = s.scnt.toNat ∧ (readCell s .olen).toNat = s.olen.toNat ∧
    (readCell s .poly).toNat = s.poly.toNat ∧ (∀ r, (readCell s (.e r)).toNat = (s.getE r).toNat) ∧
    (∀ i v, Memory.read s.x i = some v → (readCell s (.x i)).toNat = v.toNat) ∧
    (∀ i v, Memory.read s.data i = some v → (readCell s (.data i)).toNat = v.toNat) ∧
    (∀ i v, Memory.read s.out i = some v → (readCell s (.out i)).toNat = v.toNat) ∧
    (∀ r c v, Memory.read s.ma (256 * r + c) = some v → (readCell s (.ma r c)).toNat = v.toNat) ∧
    (∀ r c v, Memory.read s.mb (256 * r + c) = some v → (readCell s (.mb r c)).toNat = v.toNat) ∧
    (∀ i v, Memory.read s.sid i = some v → (readCell s (.sid i)).toNat = v.toNat) ∧
    (∀ i v, Memory.read s.slen i = some v → (readCell s (.slen i)).toNat = v.toNat) ∧
    (∀ i v, Memory.read s.sblen i = some v → (readCell s (.sblen i)).toNat = v.toNat) ∧
    ∀ i j v, Memory.read s.sbody (65536 * i + j) = some v → (readCell s (.sbody i j)).toNat = v.toNat

/-- R64, R65: a write to an offset that names no cell answers `BusError`, one to a read-only cell answers `OK`; neither
changes any state of the block. -/
def Obligations.WritesThatChangeNothing : Prop :=
  ∀ (s : State) (addr d : Word) (rest : List HostEvent), s.pending = HostEvent.writeAt addr d :: rest →
    (cellAt (addr - Config.base) = none → step s = .next (answered s rest .busError)) ∧
    ∀ c, cellAt (addr - Config.base) = some c → c.readOnly = true → step s = .next (answered s rest .ok)

/-- R62, R63, R75: a write to a writable cell, other than `CMD` and `ERR`, answers `OK`, and a read of the cell then
gives the W low bits of the data. -/
def Obligations.WriteThenReadKeepsLowBits : Prop :=
  ∀ (s : State) (off d : Word) (rest : List HostEvent) (c : Cell),
    s.pending = .write off d :: rest → cellAt off = some c → c ≠ .cmd → c ≠ .err → c.readOnly = false →
    ∃ t, step s = .next t ∧ t.answers = .ok :: s.answers ∧ (readCell t c).toNat = d.toNat % 2 ^ c.width

/-- R62, R75: a write to a writable cell other than `CMD` and `ERR` leaves what every other cell holds, and the fault
and the input list but for the event taken, as they were. -/
def Obligations.WriteLeavesOtherCells : Prop :=
  ∀ (s : State) (off d : Word) (rest : List HostEvent) (c c' : Cell),
    s.pending = .write off d :: rest → cellAt off = some c → c ≠ .cmd → c ≠ .err → c'.inRange = true → c' ≠ c →
    ∃ t, step s = .next t ∧ readCell t c' = readCell (s.takeEvent rest) c' ∧ t.err = s.err ∧ t.einfo = s.einfo ∧
      t.pending = rest

/-! ### Reset and the invariant (10_state.md, 70_reset_and_hazards.md) -/

/-- R55: the state after reset; `POLY` reads the parameter, which is legal. -/
def Obligations.ResetState : Prop :=
  RegistersAtReset State.reset ∧ readCell State.reset .poly = Config.poly.setWidth 32 ∧ polyOk State.reset

/-- R270: from any state, whatever is pending, reset gives the state of R55 and R56; `POLY` is the parameter and stays.
That no memory cell has a value then (log entry 3), and that the rest of the host's events and the answers stay (log entry
7), is the model's choice. -/
def Obligations.ResetEventResets : Prop :=
  MemoriesUnwritten State.reset ∧
  ∀ (s : State) (rest : List HostEvent), s.pending = .reset :: rest →
    ∃ t, step s = .next t ∧ RegistersAtReset t ∧ MemoriesUnwritten t ∧ t.poly = s.poly ∧ t.pending = rest ∧ t.answers = s.answers

/-- R57 at reset, with the rest of the invariant. -/
def Obligations.ResetMeetsInvariant : Prop := State.reset.Inv

/-- R57, R73, R43, R238 over every step from every state that meets the invariant: `1 <= K <= N`, `POLY` legal, `EINFO`
matches `ERR`, and every memory canonical and inside its array. -/
def Obligations.StepKeepsInvariant : Prop :=
  ∀ s t : State, s.Inv → step s = .next t → t.Inv

/-- R45, R46, R51, R221: no step changes `POLY`; `N` and `K` change only by reset or by a CONFIG whose pair is valid, and
then to that pair. -/
def Obligations.ConfigurationChangesOnlyByConfig : Prop :=
  ∀ s t : State, step s = .next t →
    t.poly = s.poly ∧
    (t.n ≠ s.n ∨ t.k ≠ s.k →
      (∃ rest, s.pending = .reset :: rest) ∨
      ∃ w rest n k, s.pending = .write 0 w :: rest ∧ s.err = none ∧ decode w = .ok (.config n k) ∧
        1 ≤ k ∧ k ≤ n ∧ n ≤ 255 ∧ t.n.toNat = n ∧ t.k.toNat = k)

/-! ### The field (40_field.md) -/

/-- R125: `mul(a, b)` is the remainder of a(t)·b(t) on division by POLY(t): the product is q(t)·POLY(t) plus a remainder
of degree below 8, coefficient by coefficient, for any `POLY` of degree 8; after the second loop bits 14..8 are 0. -/
def Obligations.MulIsPolynomialRemainder : Prop :=
  ∀ (p : Poly) (a b : Byte), p.getLsbD 8 = true →
    (gfReduce p (clMul a b)).toNat < 256 ∧
    ∃ q : BitVec 7, ∀ n, productBit a b n = Bool.xor (productBit q p n) ((gfMul p a b).getLsbD n)

/-- R143: the field laws, for every legal `POLY`. -/
def Obligations.FieldLaws : Prop :=
  ∀ p ∈ Config.legalPolys, ∀ a b c : Byte,
    gfAdd a a = 0x00 ∧ gfMul p a 0x01 = a ∧ gfMul p a 0x00 = 0x00 ∧
    gfMul p (gfMul p a b) c = gfMul p a (gfMul p b c) ∧
    (a ≠ 0x00 → ∃ i, gfInverse p a = some i ∧ gfMul p a i = 0x01) ∧
    gfAdd a b = gfAdd b a ∧ gfAdd (gfAdd a b) c = gfAdd a (gfAdd b c) ∧ gfMul p a b = gfMul p b a ∧
    gfMul p a (gfAdd b c) = gfAdd (gfMul p a b) (gfMul p a c) ∧ gfAdd a 0x00 = a ∧ gfSub a b = gfAdd a b ∧
    (gfMul p a b = 0x00 → a = 0x00 ∨ b = 0x00) ∧
    ∀ e f, gfPow p a (e + f) = gfMul p (gfPow p a e) (gfPow p a f)

/-- R127: for a nonzero a, `inverse(a)` is the unique byte b with `mul(a, b) = 0x01`; the zero element has none. R128,
which the spec marks as derived and as general knowledge (93 G3): it equals `pow(a, 254)`. The model finds it by the search
of R128 (log entry 9). -/
def Obligations.InverseIsUnique : Prop :=
  ∀ p ∈ Config.legalPolys,
    gfInverse p 0x00 = none ∧
    ∀ a : Byte, a ≠ 0x00 →
      gfInverse p a = some (gfPow p a 254) ∧ ∀ b, gfMul p a b = 0x01 ↔ b = gfPow p a 254

/-- R130: the corner cases of pow. -/
def Obligations.PowCornerCases : Prop :=
  ∀ p ∈ Config.legalPolys, ∀ (a : Byte) (e : Nat),
    gfPow p a 1 = a ∧ gfPow p 0x00 0 = 0x01 ∧ (1 ≤ e → gfPow p 0x00 e = 0x00) ∧ gfPow p 0x01 e = 0x01 ∧
    (a ≠ 0x00 → gfPow p a 255 = 0x01 ∧ gfInverse p a = some (gfPow p a 254))

/-- R131: division is by `inverse`, fails for `b = 0` whatever a is, and its consequences. -/
def Obligations.DivisionLaws : Prop :=
  ∀ p ∈ Config.legalPolys, ∀ a b : Byte,
    gfDiv p a 0x00 = none ∧
    (b ≠ 0x00 → ∃ i, gfInverse p b = some i ∧ gfDiv p a b = some (gfMul p a i) ∧ gfDiv p 0x00 b = some 0x00 ∧
      gfDiv p (gfMul p a b) b = some a ∧ gfDiv p b b = some 0x01) ∧
    gfDiv p a 0x01 = some a

/-- R122: every legal value of `POLY` has bit 8 set and is irreducible: it is no product of two polynomials of degree
1 to 7. -/
def Obligations.LegalPolysAreIrreducible : Prop :=
  Config.legalPolys.Nodup ∧ Config.legalPolys.length = 30 ∧
  ∀ p ∈ Config.legalPolys, p.getLsbD 8 = true ∧ p.getLsbD 0 = true ∧
    ∀ f g : Byte, 2 ≤ f.toNat → 2 ≤ g.toNat → ¬ ∀ n, productBit f g n = p.getLsbD n

/-! ### The field commands (40_field.md) -/

/-- R133, R134: GFADD and GFSUB write the exclusive-or of the two sources, read before the destination is written. -/
def Obligations.GfaddGfsubResult : Prop :=
  ∀ (rd ra rb : Reg) (s : State),
    WritesElement (.gfadd rd ra rb) rd (s.getE ra ^^^ s.getE rb) s ∧
    HasWord (.gfadd rd ra rb) (0x10000000 + rd.val * 2 ^ 20 + ra.val * 2 ^ 16 + rb.val * 2 ^ 12) ∧
    WritesElement (.gfsub rd ra rb) rd (s.getE ra ^^^ s.getE rb) s ∧
    HasWord (.gfsub rd ra rb) (0x11000000 + rd.val * 2 ^ 20 + ra.val * 2 ^ 16 + rb.val * 2 ^ 12)

/-- R135: GFMUL writes the product of the two sources. -/
def Obligations.GfmulResult : Prop :=
  ∀ (rd ra rb : Reg) (s : State),
    WritesElement (.gfmul rd ra rb) rd (gfMul s.poly (s.getE ra) (s.getE rb)) s ∧
    HasWord (.gfmul rd ra rb) (0x12000000 + rd.val * 2 ^ 20 + ra.val * 2 ^ 16 + rb.val * 2 ^ 12)

/-- R136: GFDIV writes `mul(dividend, inverse(divisor))` for a nonzero divisor, and raises DomainError for the divisor
`0x00`, whatever the dividend. -/
def Obligations.GfdivResult : Prop :=
  ∀ (rd ra rb : Reg) (s : State), polyOk s →
    (s.getE rb = 0x00 → Raises (.gfdiv rd ra rb) .domain s) ∧
    (s.getE rb ≠ 0x00 → ∃ i, gfInverse s.poly (s.getE rb) = some i ∧
      WritesElement (.gfdiv rd ra rb) rd (gfMul s.poly (s.getE ra) i) s) ∧
    HasWord (.gfdiv rd ra rb) (0x13000000 + rd.val * 2 ^ 20 + ra.val * 2 ^ 16 + rb.val * 2 ^ 12)

/-- R137: GFINV writes the inverse of a nonzero source, and raises DomainError for the source `0x00`. -/
def Obligations.GfinvResult : Prop :=
  ∀ (rd ra : Reg) (s : State), polyOk s →
    (s.getE ra = 0x00 → Raises (.gfinv rd ra) .domain s) ∧
    (s.getE ra ≠ 0x00 → ∃ v, gfMul s.poly (s.getE ra) v = 0x01 ∧ WritesElement (.gfinv rd ra) rd v s) ∧
    HasWord (.gfinv rd ra) (0x14000000 + rd.val * 2 ^ 20 + ra.val * 2 ^ 16)

/-- R138, R141: GFPOW and GFPOWI write the power of the base; the exponent is the other register read as a natural
number, or the immediate. -/
def Obligations.GfpowGfpowiResult : Prop :=
  ∀ (rd ra rb : Reg) (imm8 : Nat) (s : State),
    WritesElement (.gfpow rd ra rb) rd (gfPow s.poly (s.getE ra) (s.getE rb).toNat) s ∧
    HasWord (.gfpow rd ra rb) (0x15000000 + rd.val * 2 ^ 20 + ra.val * 2 ^ 16 + rb.val * 2 ^ 12) ∧
    WritesElement (.gfpowi rd ra imm8) rd (gfPow s.poly (s.getE ra) imm8) s ∧
    (imm8 ≤ 255 → HasWord (.gfpowi rd ra imm8) (0x18000000 + rd.val * 2 ^ 20 + ra.val * 2 ^ 16 + imm8))

/-- R139, R140: GFZERO and GFONE write the constants. -/
def Obligations.GfzeroGfoneResult : Prop :=
  ∀ (rd : Reg) (s : State),
    WritesElement (.gfzero rd) rd 0x00 s ∧ HasWord (.gfzero rd) (0x16000000 + rd.val * 2 ^ 20) ∧
    WritesElement (.gfone rd) rd 0x01 s ∧ HasWord (.gfone rd) (0x17000000 + rd.val * 2 ^ 20)

/-! ### Configuration (44_system.md) -/

/-- R220, R221: CONFIG with a valid pair sets `N` and `K` to it and writes nothing else; any other pair raises
ConfigurationError and leaves them. -/
def Obligations.ConfigResult : Prop :=
  ∀ (n k : Nat) (s : State),
    (1 ≤ k ∧ k ≤ n ∧ n ≤ 255 →
      ∃ t, exec (.config n k) s = .next t ∧ t.n.toNat = n ∧ t.k.toNat = k ∧ { t with n := s.n, k := s.k } = s) ∧
    (¬ (1 ≤ k ∧ k ≤ n ∧ n ≤ 255) → Raises (.config n k) .configuration s) ∧
    (n ≤ 4095 → k ≤ 4095 → HasWord (.config n k) (0x20000000 + n * 2 ^ 12 + k))

/-! ### The evaluator (41_encode.md) -/

/-- R161: the closed form of Horner evaluation: coefficient j multiplies x^j. -/
def Obligations.HornerClosedForm : Prop :=
  ∀ p ∈ Config.legalPolys, ∀ (k : Nat) (c : Nat → Byte) (x : Byte),
    horner p ((List.range k).map c) x = polyValue p k c x

/-- R163: PEVAL writes the value at `E[ra]` of the polynomial whose coefficients are chunk `CHUNK`, zero-padded at
`LENGTH`; a chunk wholly at or beyond `LENGTH` gives `0x00`. -/
def Obligations.PevalResult : Prop :=
  ∀ (rd ra : Reg) (s : State), polyOk s →
    (∃ c, ChunkCoefficients s s.chunk.toNat c ∧
      WritesElement (.peval rd ra) rd (polyValue s.poly s.k.toNat c (s.getE ra)) s) ∧
    (s.length.toNat ≤ s.chunk.toNat * s.k.toNat → WritesElement (.peval rd ra) rd 0x00 s) ∧
    HasWord (.peval rd ra) (0x21000000 + rd.val * 2 ^ 20 + ra.val * 2 ^ 16)

/-- R165: ENCODE writes the slots 0..N-1: id, length, body length `ceil(L/K)`, and as body byte c the value of chunk c at
the id; every other cell of the share table and the whole rest of the state is as before. -/
def Obligations.EncodeResult : Prop :=
  ∀ s : State, configOk s → polyOk s →
    ∃ (t : State) (coefs : Nat → Nat → Nat → Byte), exec .encode s = .next t ∧
      HasWord .encode 0x24000000 ∧
      (∀ slot c, ChunkCoefficients s c (coefs slot c)) ∧
      (∀ slot, slot < s.n.toNat →
        Memory.read t.sid slot = some (BitVec.ofNat 8 (slot + 1)) ∧ Memory.read t.slen slot = some s.length ∧
        Memory.read t.sblen slot = some (BitVec.ofNat 16 ((s.length.toNat + s.k.toNat - 1) / s.k.toNat)) ∧
        ∀ c, c < (s.length.toNat + s.k.toNat - 1) / s.k.toNat →
          Memory.read t.sbody (65536 * slot + c) =
            some (polyValue s.poly s.k.toNat (coefs slot c) (BitVec.ofNat 8 (slot + 1)))) ∧
      (∀ slot, s.n.toNat ≤ slot → Memory.read t.sid slot = Memory.read s.sid slot ∧
        Memory.read t.slen slot = Memory.read s.slen slot ∧ Memory.read t.sblen slot = Memory.read s.sblen slot) ∧
      (∀ a, (∀ slot c, slot < s.n.toNat → c < (s.length.toNat + s.k.toNat - 1) / s.k.toNat →
          a ≠ 65536 * slot + c) → Memory.read t.sbody a = Memory.read s.sbody a) ∧
      { t with sid := s.sid, slen := s.slen, sblen := s.sblen, sbody := s.sbody } = s

/-- R167: with `K = 1` every share's body equals the data; with `LENGTH = 0` every body is empty and no body cell is
written. -/
def Obligations.EncodeEdgeCases : Prop :=
  ∀ s t : State, exec .encode s = .next t →
    (s.k = 1 → dataWritten s → ∀ slot c, slot < s.n.toNat → c < s.length.toNat →
      Memory.read t.sblen slot = some s.length ∧
      Memory.read t.sbody (65536 * slot + c) = Memory.read s.data c) ∧
    (configOk s → s.length = 0 → t.sbody = s.sbody ∧
      ∀ slot, slot < s.n.toNat → Memory.read t.slen slot = some 0 ∧ Memory.read t.sblen slot = some 0)

/-- R162, last sentence: bytes the host left in `DATA` at or beyond `LENGTH` have no effect: from two states that differ
only there, every command gives the same, but for those bytes. Cells below `LENGTH` that have not been written read as the same free
values in both (log entry 3). -/
def Obligations.DataBeyondLengthHasNoEffect : Prop :=
  ∀ (i : Instr) (s s' t t' : State),
    { s' with data := s.data } = s → (∀ a, a < s.length.toNat → Memory.read s'.data a = Memory.read s.data a) →
    exec i s = .next t → exec i s' = .next t' → { t' with data := t.data } = t

/-! ### The matrix unit (43_matrix.md) -/

/-- R202: VAND writes the corner of `MA` with the powers of the nodes (any value for a node that has not been written,
R56), accepts zero and repeated nodes, and changes nothing else. -/
def Obligations.VandResult : Prop :=
  ∀ s : State, ∃ (t : State) (node : Nat → Nat → Byte), exec .vand s = .next t ∧ HasWord .vand 0x22000000 ∧
    (∀ i j v, Memory.read s.x i = some v → node i j = v) ∧
    (∀ r c, r < s.k.toNat → c < s.k.toNat →
      Memory.read t.ma (256 * r + c) = some (gfPow s.poly (node r c) c)) ∧
    (∀ a, (∀ r c, r < s.k.toNat → c < s.k.toNat → a ≠ 256 * r + c) → Memory.read t.ma a = Memory.read s.ma a) ∧
    { t with ma := s.ma } = s

/-- R204: MINV writes the corner of `MB` with `ginv` of the corner of `MA` and changes nothing else, or raises
SingularMatrix where `ginv` meets a zero pivot. -/
def Obligations.MinvResult : Prop :=
  ∀ s : State, ∃ a : Nat → Nat → Byte,
    (∀ r c v, Memory.read s.ma (256 * r + c) = some v → a r c = v) ∧
    (ginv s.poly s.k.toNat (matOf s.k.toNat a) = none → Raises .minv .singularMatrix s) ∧ HasWord .minv 0x23000000 ∧
    ∀ m, ginv s.poly s.k.toNat (matOf s.k.toNat a) = some m →
      ∃ t, exec .minv s = .next t ∧
        (∀ r c, r < s.k.toNat → c < s.k.toNat → Memory.read t.mb (256 * r + c) = some (entry m r c)) ∧
        (∀ b, (∀ r c, r < s.k.toNat → c < s.k.toNat → b ≠ 256 * r + c) →
          Memory.read t.mb b = Memory.read s.mb b) ∧
        { t with mb := s.mb } = s

/-- R207: if `ginv(A, k)` returns R then A·R = R·A = I_k, and R is the only matrix with that property. -/
def Obligations.GinvIsTwoSidedInverse : Prop :=
  ∀ p ∈ Config.legalPolys, ∀ (k : Nat) (a : Nat → Nat → Byte) (m : Mat), ginv p k (matOf k a) = some m →
    ProductIsOne p k a (entry m) ∧ ProductIsOne p k (entry m) a ∧
    ∀ b, ProductIsOne p k a b ∨ ProductIsOne p k b a → ∀ r c, r < k → c < k → b r c = entry m r c

/-- R208, first part (the spec marks it as general knowledge): `ginv(A, k)` succeeds exactly when every leading corner of
A, of size 1 to k, is invertible. -/
def Obligations.GinvSucceedsIffLeadingCornersInvertible : Prop :=
  ∀ p ∈ Config.legalPolys, ∀ (k : Nat) (a : Nat → Nat → Byte),
    (∃ m, ginv p k (matOf k a) = some m) ↔ ∀ n, 1 ≤ n → n ≤ k → ∃ b, ProductIsOne p n a b

/-- R208, second part (the spec marks it as general knowledge): `ginv(vand(x, k), k)` succeeds exactly when the k nodes
are pairwise distinct, in whatever order and whether or not one is zero. -/
def Obligations.GinvOfVandermondeIffDistinct : Prop :=
  ∀ p ∈ Config.legalPolys, ∀ (k : Nat) (x : Nat → Byte),
    (∃ m, ginv p k (vand p k x) = some m) ↔ ∀ i j, i < k → j < k → x i = x j → i = j

/-- R204, R207 and R208 together: MINV completes on every written corner all of whose leading corners are invertible, and
then the corner of `MB` is the two-sided inverse of the corner of `MA`; nothing else changes. That the leading corners
decide it is R208, which the spec marks as general knowledge. -/
def Obligations.MinvCompletesWithTheInverse : Prop :=
  ∀ (s : State) (a : Nat → Nat → Byte), polyOk s →
    (∀ r c, r < s.k.toNat → c < s.k.toNat → Memory.read s.ma (256 * r + c) = some (a r c)) →
    (∀ n, 1 ≤ n → n ≤ s.k.toNat → ∃ b, ProductIsOne s.poly n a b) →
    ∃ (t : State) (m : Nat → Nat → Byte), exec .minv s = .next t ∧
      (∀ r c, r < s.k.toNat → c < s.k.toNat → Memory.read t.mb (256 * r + c) = some (m r c)) ∧
      ProductIsOne s.poly s.k.toNat a m ∧ ProductIsOne s.poly s.k.toNat m a ∧
      (∀ b, (∀ r c, r < s.k.toNat → c < s.k.toNat → b ≠ 256 * r + c) → Memory.read t.mb b = Memory.read s.mb b) ∧
      { t with mb := s.mb } = s

/-- R205: no rows are swapped, so MINV refuses the permutation matrix `00 01 / 01 00`, which is its own inverse. -/
def Obligations.MinvRefusesPermutation : Prop :=
  ∀ s : State, s.k = 2 → Memory.read s.ma 0 = some 0x00 → Memory.read s.ma 1 = some 0x01 →
    Memory.read s.ma 256 = some 0x01 → Memory.read s.ma 257 = some 0x00 → Raises .minv .singularMatrix s

/-! ### Reconstruction (42_decode.md) -/

/-- R184: with too few shares DECODE raises InsufficientShares whatever the slots hold. -/
def Obligations.DecodeInsufficientShares : Prop :=
  ∀ s : State, s.scnt.toNat < s.k.toNat → Raises .decode .insufficientShares s

/-- R185, R187: with enough shares supplied, a length or body length that is not slot 0's, an id above `N`, or a body
length that is not `ceil(L/K)` raises InconsistentShares, whatever the ids of the selected slots. -/
def Obligations.DecodeInconsistentShares : Prop :=
  ∀ (s : State) (id : Nat → Byte) (len blen : Nat → Half),
    Supplied s id len blen → ¬ Consistent s id len blen → Raises .decode .inconsistentShares s

/-- R186: with enough consistent shares, DECODE raises SingularMatrix exactly when a selected id is `0x00` or two selected
ids are equal; ids outside the selected slots do not matter. -/
def Obligations.DecodeSingularIffZeroOrDuplicate : Prop :=
  ∀ (s : State) (id : Nat → Byte) (len blen : Nat → Half), polyOk s → s.err = none →
    Supplied s id len blen → Consistent s id len blen →
    (Raises .decode .singularMatrix s ↔
      (∃ i, i < s.k.toNat ∧ id i = 0x00) ∨ ∃ i j, i < j ∧ j < s.k.toNat ∧ id i = id j)

/-- R188, R183 step 7, from every state with `1 <= K`, unwritten slots included: a DECODE either raises one of its three
errors and changes nothing else, or writes `OLEN` = L (`SLEN[0]`) and all of `OUT[0..L-1]` and nothing else: the cells
stored to are exactly those below L, each with the byte `recon` gives for D, the inverse of the Vandermonde matrix of the
selected ids. A cell of the share table that has not been written stands for any value per read (R56). -/
def Obligations.DecodeAllOrNothing : Prop :=
  ∀ s : State, 1 ≤ s.k.toNat →
    (∃ e ∈ errorsOf .decode, Raises .decode e s) ∨
    ∃ (t : State) (d : Mat) (id y : Nat → Nat → Byte), exec .decode s = .next t ∧ decodeMatrix s = .ok d ∧
      (∀ v, Memory.read s.slen 0 = some v → t.olen = v) ∧
      (∀ a, a < t.olen.toNat ↔ ∃ b, (a, b) ∈ outStores s d) ∧
      (∀ i j v, Memory.read s.sid i = some v → id i j = v) ∧
      ginv s.poly s.k.toNat (vandOf s.poly s.k.toNat id) = some d ∧
      (∀ x i v, Memory.read s.sbody (65536 * x + i) = some v → y x i = v) ∧
      (∀ i j, j < s.k.toNat → i * s.k.toNat + j < t.olen.toNat →
        Memory.read t.out (i * s.k.toNat + j) =
          some (gfSum ((List.range s.k.toNat).map fun x => gfMul s.poly (entry d j x) (y x i)))) ∧
      (∀ i, t.olen.toNat ≤ i → Memory.read t.out i = Memory.read s.out i) ∧
      { t with out := s.out, olen := s.olen } = s

/-- R183, step 7: where the checks pass and D is the inverse of the Vandermonde matrix of the selected ids, `OUT[i·K + j]`
below L is the sum over the selected shares x of `mul(D[j][x], SBODY[x][i])`, and `OLEN` is L. -/
def Obligations.DecodeReconstructs : Prop :=
  ∀ (s : State) (id : Nat → Byte) (len blen : Nat → Half) (y : Nat → Nat → Byte) (d : Mat),
    Supplied s id len blen → Consistent s id len blen → (∀ i, i < s.k.toNat → id i ≠ 0x00) →
    (∀ x i, x < s.k.toNat → i < (blen 0).toNat → Memory.read s.sbody (65536 * x + i) = some (y x i)) →
    ginv s.poly s.k.toNat (vand s.poly s.k.toNat id) = some d →
    ∃ t, exec .decode s = .next t ∧ t.olen = len 0 ∧
      (∀ i j, j < s.k.toNat → i * s.k.toNat + j < (len 0).toNat →
        Memory.read t.out (i * s.k.toNat + j) =
          some (gfSum ((List.range s.k.toNat).map fun x => gfMul s.poly (entry d j x) (y x i)))) ∧
      (∀ a, (len 0).toNat ≤ a → Memory.read t.out a = Memory.read s.out a) ∧
      { t with out := s.out, olen := s.olen } = s

/-- R191: with `K = 1` the first supplied share's body is the data. -/
def Obligations.DecodeThresholdOne : Prop :=
  ∀ (s : State) (id : Nat → Byte) (len blen : Nat → Half) (body : Nat → Byte), s.k = 1 →
    Supplied s id len blen → Consistent s id len blen → id 0 ≠ 0x00 →
    (∀ i, i < (len 0).toNat → Memory.read s.sbody i = some (body i)) →
    ∃ t, exec .decode s = .next t ∧ t.err = s.err ∧ t.olen = len 0 ∧
      ∀ i, i < (len 0).toNat → Memory.read t.out i = some (body i)

/-- R193, round trip, including `k = 1` and length 0: a DECODE of at least K copies of shares of one ENCODE, the first K
from distinct slots, in any order, under the same configuration, raises nothing and gives back the data. -/
def Obligations.RoundTrip : Prop :=
  ∀ s enc u : State, ∀ src : Nat → Nat,
    configOk s → polyOk s → dataWritten s → exec .encode s = .next enc → SuppliesCopies enc u src →
    ∃ t, exec .decode u = .next t ∧ t.err = u.err ∧ t.olen = s.length ∧
      (∀ i, i < s.length.toNat → Memory.read t.out i = Memory.read s.data i) ∧
      (∀ i, s.length.toNat ≤ i → Memory.read t.out i = Memory.read u.out i) ∧
      { t with out := u.out, olen := u.olen } = u

/-- R193, subset independence and shuffle invariance: two DECODEs that are supplied with different selections or orders
of the shares of one dispersal give the same bytes. -/
def Obligations.SubsetIndependence : Prop :=
  ∀ s enc u u' t t' : State, ∀ src src' : Nat → Nat,
    configOk s → polyOk s → dataWritten s → exec .encode s = .next enc →
    SuppliesCopies enc u src → SuppliesCopies enc u' src' →
    exec .decode u = .next t → exec .decode u' = .next t' →
    t.olen = t'.olen ∧ ∀ i, i < t.olen.toNat → Memory.read t.out i = Memory.read t'.out i
end

