-- ==== Sys2Proof/Laws/Decode.lean ====
section
/-! SUPPORT. What the slices of a command word are, as facts of natural numbers. -/

namespace Sys2Proof

theorem commandWord_toNat {op rest : Nat} (hop : op < 256) (hrest : rest < 2 ^ 24) :
    (commandWord op rest).toNat = op * 2 ^ 24 + rest := by
  simp only [commandWord, BitVec.toNat_ofNat]; omega

/-- The opcode of a word built by `commandWord` is the one it was built with (R90). -/
theorem opcode_commandWord {op rest : Nat} (hop : op < 256) (hrest : rest < 2 ^ 24) :
    slice (commandWord op rest) 31 24 = op := by
  simp only [slice, commandWord_toNat hop hrest]; omega

theorem regField_val (w : Word) (hi : Nat) : (regField w hi).val = slice w hi (hi - 3) % 16 := rfl

/-- The encoder's operand bits always fit below the opcode. -/
theorem formatR_fits (rd ra rb : Reg) : rd.val * 2 ^ 20 + ra.val * 2 ^ 16 + rb.val * 2 ^ 12 < 2 ^ 24 := by omega

theorem formatU_fits (rd ra : Reg) : rd.val * 2 ^ 20 + ra.val * 2 ^ 16 < 2 ^ 24 := by omega

theorem formatI_fits (rd ra : Reg) (n : Nat) : rd.val * 2 ^ 20 + ra.val * 2 ^ 16 + n % 2 ^ 8 < 2 ^ 24 := by omega

theorem formatC_fits (n k : Nat) : n % 2 ^ 12 * 2 ^ 12 + k % 2 ^ 12 < 2 ^ 24 := by omega

end Sys2Proof
end

