-- ==== Sys2Proof/Laws/Field.lean ====
section
/-! SUPPORT. The bit-level laws of the field functions: the two loops of `mul` are linear over exclusive-or, so two maps
that are linear agree as soon as they agree on the eight powers of t. -/

namespace Sys2Proof.Machine

variable {w : Nat}

/-- A loop that adds terms is linear in its start value and its terms. -/
theorem foldl_xor_xor (l : List Nat) (f g : Nat → BitVec w) (p q : BitVec w) :
    l.foldl (fun p i => p ^^^ (f i ^^^ g i)) (p ^^^ q) =
      l.foldl (fun p i => p ^^^ f i) p ^^^ l.foldl (fun p i => p ^^^ g i) q := by
  induction l generalizing p q with
  | nil => rfl
  | cons i l ih =>
    have e : p ^^^ q ^^^ (f i ^^^ g i) = p ^^^ f i ^^^ (q ^^^ g i) := by ac_rfl
    simp only [List.foldl_cons, e, ih]

/-- The term loop i of the carry-less product adds. -/
def clTerm (a b : Byte) (i : Nat) : BitVec 15 := if b.getLsbD i then a.setWidth 15 <<< i else 0

theorem clMul_eq_foldl (a b : Byte) : clMul a b = (List.range 8).foldl (fun p i => p ^^^ clTerm a b i) 0 := by
  unfold clMul clTerm
  congr 1
  funext p i
  split <;> simp

theorem clTerm_xor_left (a a' b : Byte) (i : Nat) : clTerm (a ^^^ a') b i = clTerm a b i ^^^ clTerm a' b i := by
  unfold clTerm
  split
  · rw [BitVec.setWidth_xor, BitVec.shiftLeft_xor_distrib]
  · simp

theorem clTerm_xor_right (a b b' : Byte) (i : Nat) : clTerm a (b ^^^ b') i = clTerm a b i ^^^ clTerm a b' i := by
  unfold clTerm
  rw [BitVec.getLsbD_xor]
  cases b.getLsbD i <;> cases b'.getLsbD i <;> simp

/-- The carry-less product distributes over exclusive-or on the left. -/
theorem clMul_xor_left (a a' b : Byte) : clMul (a ^^^ a') b = clMul a b ^^^ clMul a' b := by
  have h := foldl_xor_xor (List.range 8) (clTerm a b) (clTerm a' b) 0 0
  simp only [clMul_eq_foldl, clTerm_xor_left, ← h]
  rfl

/-- The carry-less product distributes over exclusive-or on the right. -/
theorem clMul_xor_right (a b b' : Byte) : clMul a (b ^^^ b') = clMul a b ^^^ clMul a b' := by
  have h := foldl_xor_xor (List.range 8) (clTerm a b) (clTerm a b') 0 0
  simp only [clMul_eq_foldl, clTerm_xor_right, ← h]
  rfl

/-- One step of the reduction is linear. -/
theorem reduceStep_xor (p q c : BitVec 15) (i : Nat) :
    (if (p ^^^ q).getLsbD i then p ^^^ q ^^^ c else p ^^^ q) =
      (if p.getLsbD i then p ^^^ c else p) ^^^ (if q.getLsbD i then q ^^^ c else q) := by
  rw [BitVec.getLsbD_xor]
  have e : p ^^^ c ^^^ (q ^^^ c) = p ^^^ q := by
    rw [show p ^^^ c ^^^ (q ^^^ c) = p ^^^ q ^^^ (c ^^^ c) by ac_rfl]; simp
  cases p.getLsbD i <;> cases q.getLsbD i <;> simp [e]
  · ac_rfl
  · ac_rfl

/-- The reduction is linear. -/
theorem gfReduce_xor (poly : Poly) (p q : BitVec 15) : gfReduce poly (p ^^^ q) = gfReduce poly p ^^^ gfReduce poly q := by
  unfold gfReduce
  generalize [14, 13, 12, 11, 10, 9, 8] = l
  induction l generalizing p q with
  | nil => rfl
  | cons i l ih => simp only [List.foldl_cons, reduceStep_xor, ih]

/-- `mul` distributes over `add` on the left, for any `POLY`. -/
theorem gfMul_xor_left (poly : Poly) (a a' b : Byte) : gfMul poly (a ^^^ a') b = gfMul poly a b ^^^ gfMul poly a' b := by
  simp [gfMul, clMul_xor_left, gfReduce_xor, BitVec.setWidth_xor]

/-- `mul` distributes over `add` on the right, for any `POLY`. -/
theorem gfMul_xor_right (poly : Poly) (a b b' : Byte) : gfMul poly a (b ^^^ b') = gfMul poly a b ^^^ gfMul poly a b' := by
  simp [gfMul, clMul_xor_right, gfReduce_xor, BitVec.setWidth_xor]

/-- A byte is the sum of the powers of t whose coefficients are 1 (R120). -/
theorem byte_eq_sum (a : Byte) :
    a = (List.range 8).foldl (fun p i => p ^^^ (if a.getLsbD i then BitVec.twoPow 8 i else 0)) 0 := by
  revert a; decide +kernel

/-- Two linear maps that agree on the powers of t are equal. -/
theorem linear_ext {f g : Byte → BitVec w} (hf : ∀ a b, f (a ^^^ b) = f a ^^^ f b) (hg : ∀ a b, g (a ^^^ b) = g a ^^^ g b)
    (h : ∀ i, i < 8 → f (BitVec.twoPow 8 i) = g (BitVec.twoPow 8 i)) (a : Byte) : f a = g a := by
  have zero : ∀ k : Byte → BitVec w, (∀ a b, k (a ^^^ b) = k a ^^^ k b) → k 0 = 0 := fun k hk => by
    have := hk 0 0
    simpa using this
  have key : ∀ l : List Nat, (∀ i ∈ l, i < 8) → ∀ c : Nat → Bool, ∀ p, f p = g p →
      f (l.foldl (fun p i => p ^^^ (if c i then BitVec.twoPow 8 i else 0)) p) =
        g (l.foldl (fun p i => p ^^^ (if c i then BitVec.twoPow 8 i else 0)) p) := by
    intro l
    induction l with
    | nil => exact fun _ _ _ hp => hp
    | cons i l ih =>
      intro hl c p hp
      refine ih (fun j hj => hl j (List.mem_cons_of_mem _ hj)) c _ ?_
      rw [hf, hg, hp]
      split
      · rw [h i (hl i List.mem_cons_self)]
      · rw [zero f hf, zero g hg]
  rw [byte_eq_sum a]
  exact key (List.range 8) (fun i hi => List.mem_range.1 hi) a.getLsbD 0 (by rw [zero f hf, zero g hg])

end Sys2Proof.Machine
end

