-- ==== Sys2Proof/Laws/Matrix.lean ====
section
/-! SUPPORT. Matrices are tabulated: what an entry of each is, so that no proof looks into the lists. -/

namespace Sys2Proof.Machine

theorem getD_map_range {α : Type} (k : Nat) (f : Nat → α) (i : Nat) (d : α) :
    ((List.range k).map f).getD i d = if i < k then f i else d := by
  by_cases h : i < k
  · simp [h]
  · simp [h]

/-- An entry inside the k×k corner. -/
@[simp] theorem entry_matOf {k r c : Nat} (f : Nat → Nat → Byte) (hr : r < k) (hc : c < k) :
    entry (matOf k f) r c = f r c := by
  simp [entry, matOf, hr, hc]

/-- Two tabulated matrices with the same corner are equal. -/
theorem matOf_congr {k : Nat} {f g : Nat → Nat → Byte} (h : ∀ r c, r < k → c < k → f r c = g r c) :
    matOf k f = matOf k g := by
  unfold matOf
  refine List.map_congr_left fun r hr => List.map_congr_left fun c hc => ?_
  exact h r c (List.mem_range.1 hr) (List.mem_range.1 hc)

theorem entry_eliminate (p : Poly) {k i j c : Nat} (q : Byte) (coeff : Nat → Byte) (a : Mat) (hj : j < k) (hc : c < k) :
    entry (eliminate p k i q coeff a) j c =
      if j = i then gfMul p (entry a i c) q
      else gfSub (entry a j c) (gfMul p (coeff j) (gfMul p (entry a i c) q)) := by
  simp [eliminate, hj, hc]

theorem entry_vand (p : Poly) {k i j : Nat} (x : Nat → Byte) (hi : i < k) (hj : j < k) :
    entry (vand p k x) i j = gfPow p (x i) j := by
  simp [vand, vandOf, hi, hj]

theorem entry_matOne {k r c : Nat} (hr : r < k) (hc : c < k) :
    entry (matOne k) r c = if r = c then gfOne else gfZero := by
  simp [matOne, hr, hc]

/-- What one pivot does: it stops exactly at a pivot that is zero (or, for a `POLY` that is not irreducible, has no
inverse), and else scales and eliminates with the inverse of the pivot. -/
theorem pivotStep_some {p : Poly} {k i : Nat} {w w' : Mat × Mat} (h : pivotStep p k w i = some w') :
    entry w.1 i i ≠ gfZero ∧ ∃ q, gfInverse p (entry w.1 i i) = some q ∧
      w' = (eliminate p k i q (fun j => entry w.1 j i) w.1, eliminate p k i q (fun j => entry w.1 j i) w.2) := by
  unfold pivotStep at h
  split at h
  · cases h
  · next hz =>
    obtain ⟨q, hq, rfl⟩ := Option.map_eq_some_iff.1 h
    exact ⟨hz, q, hq, rfl⟩

end Sys2Proof.Machine
end

