-- ==== Sys2Proof/Laws/Memory.lean ====
section
/-! SUPPORT. The laws of the memories: read after write, writes keep the canonical form, and what a list of stores does. -/

namespace Sys2Proof.Machine

variable {w : Nat}

@[simp] theorem Memory.read_nil (a : Nat) : Memory.read ([] : Memory w) a = none := rfl

@[simp] theorem Memory.wf_nil : Memory.wf ([] : Memory w) := List.Pairwise.nil

/-- A read of the cell just written gives what was written. -/
@[simp] theorem Memory.read_write_same (m : Memory w) (a : Nat) (v : BitVec w) :
    Memory.read (Memory.write m a v) a = some v := by
  induction m with
  | nil => simp [Memory.write, Memory.read]
  | cons c m ih =>
    obtain ⟨i, u⟩ := c
    simp only [Memory.write]
    split_ifs with h1 h2
    · simp [Memory.read]
    · simp [Memory.read]
    · simp [Memory.read, h2, ih]

/-- A write leaves every other cell alone. -/
theorem Memory.read_write_of_ne (m : Memory w) {a b : Nat} (v : BitVec w) (h : b ≠ a) :
    Memory.read (Memory.write m a v) b = Memory.read m b := by
  induction m with
  | nil => simp [Memory.write, Memory.read, h]
  | cons c m ih =>
    obtain ⟨i, u⟩ := c
    simp only [Memory.write]
    split_ifs with h1 h2
    · simp [Memory.read, h]
    · subst h2; simp [Memory.read, h]
    · simp [Memory.read, ih]

theorem Memory.read_write (m : Memory w) (a b : Nat) (v : BitVec w) :
    Memory.read (Memory.write m a v) b = if b = a then some v else Memory.read m b := by
  split_ifs with h
  · subst h; simp
  · exact Memory.read_write_of_ne m v h

/-- Where the indices of a memory after a write come from. -/
theorem Memory.mem_write {m : Memory w} {a : Nat} {v : BitVec w} {c : Nat × BitVec w}
    (h : c ∈ Memory.write m a v) : c = (a, v) ∨ c ∈ m := by
  induction m with
  | nil => simpa [Memory.write] using h
  | cons d m ih =>
    obtain ⟨i, u⟩ := d
    simp only [Memory.write] at h
    split_ifs at h with h1 h2
    · rcases List.mem_cons.1 h with h | h
      · exact .inl h
      · exact .inr h
    · rcases List.mem_cons.1 h with h | h
      · exact .inl h
      · exact .inr (List.mem_cons_of_mem _ h)
    · rcases List.mem_cons.1 h with h | h
      · exact .inr (h ▸ List.mem_cons_self)
      · rcases ih h with h | h
        · exact .inl h
        · exact .inr (List.mem_cons_of_mem _ h)

/-- A write keeps the canonical form. -/
theorem Memory.write_wf {m : Memory w} (a : Nat) (v : BitVec w) (h : Memory.wf m) : Memory.wf (Memory.write m a v) := by
  induction m with
  | nil => simp [Memory.write, Memory.wf]
  | cons c m ih =>
    obtain ⟨i, u⟩ := c
    have hc := List.pairwise_cons.1 h
    simp only [Memory.write]
    split_ifs with h1 h2
    · refine List.pairwise_cons.2 ⟨fun d hd => ?_, h⟩
      rcases List.mem_cons.1 hd with rfl | hd
      · exact h1
      · exact lt_trans h1 (hc.1 d hd)
    · exact List.pairwise_cons.2 ⟨fun d hd => by simpa [h2] using hc.1 d hd, hc.2⟩
    · refine List.pairwise_cons.2 ⟨fun d hd => ?_, ih hc.2⟩
      rcases Memory.mem_write hd with rfl | hd
      · simp only; omega
      · exact hc.1 d hd

/-- Stores keep the canonical form. -/
theorem Memory.writeAll_wf {m : Memory w} (stores : List (Nat × BitVec w)) (h : Memory.wf m) :
    Memory.wf (Memory.writeAll m stores) := by
  induction stores generalizing m with
  | nil => exact h
  | cons c l ih => exact ih (Memory.write_wf c.1 c.2 h)

theorem Memory.mem_writeAll {m : Memory w} {stores : List (Nat × BitVec w)} {c : Nat × BitVec w}
    (h : c ∈ Memory.writeAll m stores) : c ∈ stores ∨ c ∈ m := by
  induction stores generalizing m with
  | nil => exact .inr h
  | cons d l ih =>
    rcases ih (m := Memory.write m d.1 d.2) h with h | h
    · exact .inl (List.mem_cons_of_mem _ h)
    · rcases Memory.mem_write h with rfl | h
      · exact .inl List.mem_cons_self
      · exact .inr h

@[simp] theorem Memory.writeAll_nil (m : Memory w) : Memory.writeAll m [] = m := rfl

theorem Memory.writeAll_append (m : Memory w) (l₁ l₂ : List (Nat × BitVec w)) :
    Memory.writeAll m (l₁ ++ l₂) = Memory.writeAll (Memory.writeAll m l₁) l₂ := by
  simp [Memory.writeAll, List.foldl_append]

/-- A cell that is not among the stores reads as before. -/
theorem Memory.read_writeAll_of_notMem (m : Memory w) {stores : List (Nat × BitVec w)} {a : Nat}
    (h : ∀ c ∈ stores, c.1 ≠ a) : Memory.read (Memory.writeAll m stores) a = Memory.read m a := by
  induction stores generalizing m with
  | nil => rfl
  | cons d l ih =>
    have hd : a ≠ d.1 := fun e => h d List.mem_cons_self e.symm
    calc Memory.read (Memory.writeAll (Memory.write m d.1 d.2) l) a
        = Memory.read (Memory.write m d.1 d.2) a := ih _ fun c hc => h c (List.mem_cons_of_mem _ hc)
      _ = Memory.read m a := Memory.read_write_of_ne m d.2 hd

/-- A stored cell reads as the value stored, if all stores to it store the same value. -/
theorem Memory.read_writeAll_of_mem (m : Memory w) {stores : List (Nat × BitVec w)} {a : Nat} {v : BitVec w}
    (hmem : (a, v) ∈ stores) (h : ∀ c ∈ stores, c.1 = a → c.2 = v) :
    Memory.read (Memory.writeAll m stores) a = some v := by
  induction stores generalizing m with
  | nil => cases hmem
  | cons d l ih =>
    have hl : ∀ c ∈ l, c.1 = a → c.2 = v := fun c hc => h c (List.mem_cons_of_mem _ hc)
    change Memory.read (Memory.writeAll (Memory.write m d.1 d.2) l) a = some v
    by_cases hm : ∃ c ∈ l, c.1 = a
    · obtain ⟨c, hc, rfl⟩ := hm
      have hv := hl c hc rfl
      exact ih _ (by rw [← hv]; exact hc) hl
    · push Not at hm
      rcases List.mem_cons.1 hmem with rfl | hin
      · rw [Memory.read_writeAll_of_notMem _ hm]; simp
      · exact absurd rfl (hm _ hin)

/-- In canonical form a listed entry is what a read finds. -/
theorem Memory.read_of_mem {m : Memory w} (h : Memory.wf m) {a : Nat} {v : BitVec w} (hm : (a, v) ∈ m) :
    Memory.read m a = some v := by
  induction m with
  | nil => cases hm
  | cons c m ih =>
    obtain ⟨i, u⟩ := c
    have hc := List.pairwise_cons.1 h
    rcases List.mem_cons.1 hm with e | hm
    · obtain ⟨rfl, rfl⟩ := Prod.mk.inj e; simp [Memory.read]
    · have := hc.1 _ hm
      simp only at this
      simp [Memory.read, Nat.ne_of_gt this, ih hc.2 hm]

end Sys2Proof.Machine
end

