-- ==== Sys2Proof/Laws/PerInstr.lean ====
section
/-! SUPPORT. Statements about every instruction as syntax, one lemma per constructor. -/

namespace Sys2Proof.Laws.OpcodeByte

open Sys2Proof

/-- The opcode byte of a command's word is the opcode byte of the command's own row (R90, R97). -/
def Statement (i : Instr) : Prop :=
  ∃ row ∈ opcodeTable, row.mnemonic = mnemonicOf i ∧ slice (encode i) 31 24 = slice row.matchBits 31 24

/-- Every format puts its opcode in bits 31..24 (R91 to R96), so a row with that opcode byte is the command's. -/
theorem of_row {i : Instr} {op rest : Nat} (row : OpcodeRow) (he : encode i = commandWord op rest) (hop : op < 256)
    (hrest : rest < 2 ^ 24) (hrow : row ∈ opcodeTable) (hm : row.mnemonic = mnemonicOf i)
    (hb : slice row.matchBits 31 24 = op) : Statement i :=
  ⟨row, hrow, hm, by rw [he, opcode_commandWord hop hrest, hb]⟩

theorem gfadd (rd ra rb : Reg) : Statement (.gfadd rd ra rb) :=
  of_row ⟨"GFADD", 0x10000000, 0xFF000FFF⟩ rfl (by decide) (formatR_fits rd ra rb) (by decide) rfl (by decide)

theorem gfsub (rd ra rb : Reg) : Statement (.gfsub rd ra rb) :=
  of_row ⟨"GFSUB", 0x11000000, 0xFF000FFF⟩ rfl (by decide) (formatR_fits rd ra rb) (by decide) rfl (by decide)

theorem gfmul (rd ra rb : Reg) : Statement (.gfmul rd ra rb) :=
  of_row ⟨"GFMUL", 0x12000000, 0xFF000FFF⟩ rfl (by decide) (formatR_fits rd ra rb) (by decide) rfl (by decide)

theorem gfdiv (rd ra rb : Reg) : Statement (.gfdiv rd ra rb) :=
  of_row ⟨"GFDIV", 0x13000000, 0xFF000FFF⟩ rfl (by decide) (formatR_fits rd ra rb) (by decide) rfl (by decide)

theorem gfinv (rd ra : Reg) : Statement (.gfinv rd ra) :=
  of_row ⟨"GFINV", 0x14000000, 0xFF00FFFF⟩ rfl (by decide) (formatU_fits rd ra) (by decide) rfl (by decide)

theorem gfpow (rd ra rb : Reg) : Statement (.gfpow rd ra rb) :=
  of_row ⟨"GFPOW", 0x15000000, 0xFF000FFF⟩ rfl (by decide) (formatR_fits rd ra rb) (by decide) rfl (by decide)

theorem gfzero (rd : Reg) : Statement (.gfzero rd) :=
  of_row ⟨"GFZERO", 0x16000000, 0xFF0FFFFF⟩ rfl (by decide) (by omega) (by decide) rfl (by decide)

theorem gfone (rd : Reg) : Statement (.gfone rd) :=
  of_row ⟨"GFONE", 0x17000000, 0xFF0FFFFF⟩ rfl (by decide) (by omega) (by decide) rfl (by decide)

theorem gfpowi (rd ra : Reg) (imm8 : Nat) : Statement (.gfpowi rd ra imm8) :=
  of_row ⟨"GFPOWI", 0x18000000, 0xFF00FF00⟩ rfl (by decide) (formatI_fits rd ra imm8) (by decide) rfl (by decide)

theorem config (n12 k12 : Nat) : Statement (.config n12 k12) :=
  of_row ⟨"CONFIG", 0x20000000, 0xFF000000⟩ rfl (by decide) (formatC_fits n12 k12) (by decide) rfl (by decide)

theorem peval (rd ra : Reg) : Statement (.peval rd ra) :=
  of_row ⟨"PEVAL", 0x21000000, 0xFF00FFFF⟩ rfl (by decide) (formatU_fits rd ra) (by decide) rfl (by decide)

theorem vand : Statement .vand :=
  of_row ⟨"VAND", 0x22000000, 0xFFFFFFFF⟩ rfl (by decide) (by decide) (by decide) rfl (by decide)

theorem minv : Statement .minv :=
  of_row ⟨"MINV", 0x23000000, 0xFFFFFFFF⟩ rfl (by decide) (by decide) (by decide) rfl (by decide)

theorem encode : Statement .encode :=
  of_row ⟨"ENCODE", 0x24000000, 0xFFFFFFFF⟩ rfl (by decide) (by decide) (by decide) rfl (by decide)

theorem decode : Statement .decode :=
  of_row ⟨"DECODE", 0x25000000, 0xFFFFFFFF⟩ rfl (by decide) (by decide) (by decide) rfl (by decide)

end Sys2Proof.Laws.OpcodeByte
end

