-- ==== Sys2Proof/Laws/State.lean ====
section
/-! SUPPORT. One lemma per field per state update, true by rfl, so that no proof unfolds a record update. -/

namespace Sys2Proof.Machine

variable (s : State)

@[simp] theorem State.setE_e (r : Reg) (v : Byte) : (s.setE r v).e = s.e.set r v := rfl
@[simp] theorem State.setE_err (r : Reg) (v : Byte) : (s.setE r v).err = s.err := rfl
@[simp] theorem State.setE_einfo (r : Reg) (v : Byte) : (s.setE r v).einfo = s.einfo := rfl
@[simp] theorem State.setE_ctrl (r : Reg) (v : Byte) : (s.setE r v).ctrl = s.ctrl := rfl
@[simp] theorem State.setE_n (r : Reg) (v : Byte) : (s.setE r v).n = s.n := rfl
@[simp] theorem State.setE_k (r : Reg) (v : Byte) : (s.setE r v).k = s.k := rfl
@[simp] theorem State.setE_length (r : Reg) (v : Byte) : (s.setE r v).length = s.length := rfl
@[simp] theorem State.setE_chunk (r : Reg) (v : Byte) : (s.setE r v).chunk = s.chunk := rfl
@[simp] theorem State.setE_scnt (r : Reg) (v : Byte) : (s.setE r v).scnt = s.scnt := rfl
@[simp] theorem State.setE_olen (r : Reg) (v : Byte) : (s.setE r v).olen = s.olen := rfl
@[simp] theorem State.setE_poly (r : Reg) (v : Byte) : (s.setE r v).poly = s.poly := rfl
@[simp] theorem State.setE_x (r : Reg) (v : Byte) : (s.setE r v).x = s.x := rfl
@[simp] theorem State.setE_data (r : Reg) (v : Byte) : (s.setE r v).data = s.data := rfl
@[simp] theorem State.setE_out (r : Reg) (v : Byte) : (s.setE r v).out = s.out := rfl
@[simp] theorem State.setE_ma (r : Reg) (v : Byte) : (s.setE r v).ma = s.ma := rfl
@[simp] theorem State.setE_mb (r : Reg) (v : Byte) : (s.setE r v).mb = s.mb := rfl
@[simp] theorem State.setE_sid (r : Reg) (v : Byte) : (s.setE r v).sid = s.sid := rfl
@[simp] theorem State.setE_slen (r : Reg) (v : Byte) : (s.setE r v).slen = s.slen := rfl
@[simp] theorem State.setE_sblen (r : Reg) (v : Byte) : (s.setE r v).sblen = s.sblen := rfl
@[simp] theorem State.setE_sbody (r : Reg) (v : Byte) : (s.setE r v).sbody = s.sbody := rfl
@[simp] theorem State.setE_pending (r : Reg) (v : Byte) : (s.setE r v).pending = s.pending := rfl
@[simp] theorem State.setE_answers (r : Reg) (v : Byte) : (s.setE r v).answers = s.answers := rfl
@[simp] theorem State.setE_tick (r : Reg) (v : Byte) : (s.setE r v).tick = s.tick := rfl

@[simp] theorem State.setConfig_e (n k : Byte) : (s.setConfig n k).e = s.e := rfl
@[simp] theorem State.setConfig_err (n k : Byte) : (s.setConfig n k).err = s.err := rfl
@[simp] theorem State.setConfig_einfo (n k : Byte) : (s.setConfig n k).einfo = s.einfo := rfl
@[simp] theorem State.setConfig_ctrl (n k : Byte) : (s.setConfig n k).ctrl = s.ctrl := rfl
@[simp] theorem State.setConfig_n (n k : Byte) : (s.setConfig n k).n = n := rfl
@[simp] theorem State.setConfig_k (n k : Byte) : (s.setConfig n k).k = k := rfl
@[simp] theorem State.setConfig_length (n k : Byte) : (s.setConfig n k).length = s.length := rfl
@[simp] theorem State.setConfig_chunk (n k : Byte) : (s.setConfig n k).chunk = s.chunk := rfl
@[simp] theorem State.setConfig_scnt (n k : Byte) : (s.setConfig n k).scnt = s.scnt := rfl
@[simp] theorem State.setConfig_olen (n k : Byte) : (s.setConfig n k).olen = s.olen := rfl
@[simp] theorem State.setConfig_poly (n k : Byte) : (s.setConfig n k).poly = s.poly := rfl
@[simp] theorem State.setConfig_x (n k : Byte) : (s.setConfig n k).x = s.x := rfl
@[simp] theorem State.setConfig_data (n k : Byte) : (s.setConfig n k).data = s.data := rfl
@[simp] theorem State.setConfig_out (n k : Byte) : (s.setConfig n k).out = s.out := rfl
@[simp] theorem State.setConfig_ma (n k : Byte) : (s.setConfig n k).ma = s.ma := rfl
@[simp] theorem State.setConfig_mb (n k : Byte) : (s.setConfig n k).mb = s.mb := rfl
@[simp] theorem State.setConfig_sid (n k : Byte) : (s.setConfig n k).sid = s.sid := rfl
@[simp] theorem State.setConfig_slen (n k : Byte) : (s.setConfig n k).slen = s.slen := rfl
@[simp] theorem State.setConfig_sblen (n k : Byte) : (s.setConfig n k).sblen = s.sblen := rfl
@[simp] theorem State.setConfig_sbody (n k : Byte) : (s.setConfig n k).sbody = s.sbody := rfl
@[simp] theorem State.setConfig_pending (n k : Byte) : (s.setConfig n k).pending = s.pending := rfl
@[simp] theorem State.setConfig_answers (n k : Byte) : (s.setConfig n k).answers = s.answers := rfl
@[simp] theorem State.setConfig_tick (n k : Byte) : (s.setConfig n k).tick = s.tick := rfl

@[simp] theorem State.storeMa_e (cells : List (Nat × Byte)) : (s.storeMa cells).e = s.e := rfl
@[simp] theorem State.storeMa_err (cells : List (Nat × Byte)) : (s.storeMa cells).err = s.err := rfl
@[simp] theorem State.storeMa_einfo (cells : List (Nat × Byte)) : (s.storeMa cells).einfo = s.einfo := rfl
@[simp] theorem State.storeMa_ctrl (cells : List (Nat × Byte)) : (s.storeMa cells).ctrl = s.ctrl := rfl
@[simp] theorem State.storeMa_n (cells : List (Nat × Byte)) : (s.storeMa cells).n = s.n := rfl
@[simp] theorem State.storeMa_k (cells : List (Nat × Byte)) : (s.storeMa cells).k = s.k := rfl
@[simp] theorem State.storeMa_length (cells : List (Nat × Byte)) : (s.storeMa cells).length = s.length := rfl
@[simp] theorem State.storeMa_chunk (cells : List (Nat × Byte)) : (s.storeMa cells).chunk = s.chunk := rfl
@[simp] theorem State.storeMa_scnt (cells : List (Nat × Byte)) : (s.storeMa cells).scnt = s.scnt := rfl
@[simp] theorem State.storeMa_olen (cells : List (Nat × Byte)) : (s.storeMa cells).olen = s.olen := rfl
@[simp] theorem State.storeMa_poly (cells : List (Nat × Byte)) : (s.storeMa cells).poly = s.poly := rfl
@[simp] theorem State.storeMa_x (cells : List (Nat × Byte)) : (s.storeMa cells).x = s.x := rfl
@[simp] theorem State.storeMa_data (cells : List (Nat × Byte)) : (s.storeMa cells).data = s.data := rfl
@[simp] theorem State.storeMa_out (cells : List (Nat × Byte)) : (s.storeMa cells).out = s.out := rfl
@[simp] theorem State.storeMa_ma (cells : List (Nat × Byte)) : (s.storeMa cells).ma = Memory.writeAll s.ma cells := rfl
@[simp] theorem State.storeMa_mb (cells : List (Nat × Byte)) : (s.storeMa cells).mb = s.mb := rfl
@[simp] theorem State.storeMa_sid (cells : List (Nat × Byte)) : (s.storeMa cells).sid = s.sid := rfl
@[simp] theorem State.storeMa_slen (cells : List (Nat × Byte)) : (s.storeMa cells).slen = s.slen := rfl
@[simp] theorem State.storeMa_sblen (cells : List (Nat × Byte)) : (s.storeMa cells).sblen = s.sblen := rfl
@[simp] theorem State.storeMa_sbody (cells : List (Nat × Byte)) : (s.storeMa cells).sbody = s.sbody := rfl
@[simp] theorem State.storeMa_pending (cells : List (Nat × Byte)) : (s.storeMa cells).pending = s.pending := rfl
@[simp] theorem State.storeMa_answers (cells : List (Nat × Byte)) : (s.storeMa cells).answers = s.answers := rfl
@[simp] theorem State.storeMa_tick (cells : List (Nat × Byte)) : (s.storeMa cells).tick = s.tick := rfl

@[simp] theorem State.storeMb_e (cells : List (Nat × Byte)) : (s.storeMb cells).e = s.e := rfl
@[simp] theorem State.storeMb_err (cells : List (Nat × Byte)) : (s.storeMb cells).err = s.err := rfl
@[simp] theorem State.storeMb_einfo (cells : List (Nat × Byte)) : (s.storeMb cells).einfo = s.einfo := rfl
@[simp] theorem State.storeMb_ctrl (cells : List (Nat × Byte)) : (s.storeMb cells).ctrl = s.ctrl := rfl
@[simp] theorem State.storeMb_n (cells : List (Nat × Byte)) : (s.storeMb cells).n = s.n := rfl
@[simp] theorem State.storeMb_k (cells : List (Nat × Byte)) : (s.storeMb cells).k = s.k := rfl
@[simp] theorem State.storeMb_length (cells : List (Nat × Byte)) : (s.storeMb cells).length = s.length := rfl
@[simp] theorem State.storeMb_chunk (cells : List (Nat × Byte)) : (s.storeMb cells).chunk = s.chunk := rfl
@[simp] theorem State.storeMb_scnt (cells : List (Nat × Byte)) : (s.storeMb cells).scnt = s.scnt := rfl
@[simp] theorem State.storeMb_olen (cells : List (Nat × Byte)) : (s.storeMb cells).olen = s.olen := rfl
@[simp] theorem State.storeMb_poly (cells : List (Nat × Byte)) : (s.storeMb cells).poly = s.poly := rfl
@[simp] theorem State.storeMb_x (cells : List (Nat × Byte)) : (s.storeMb cells).x = s.x := rfl
@[simp] theorem State.storeMb_data (cells : List (Nat × Byte)) : (s.storeMb cells).data = s.data := rfl
@[simp] theorem State.storeMb_out (cells : List (Nat × Byte)) : (s.storeMb cells).out = s.out := rfl
@[simp] theorem State.storeMb_ma (cells : List (Nat × Byte)) : (s.storeMb cells).ma = s.ma := rfl
@[simp] theorem State.storeMb_mb (cells : List (Nat × Byte)) : (s.storeMb cells).mb = Memory.writeAll s.mb cells := rfl
@[simp] theorem State.storeMb_sid (cells : List (Nat × Byte)) : (s.storeMb cells).sid = s.sid := rfl
@[simp] theorem State.storeMb_slen (cells : List (Nat × Byte)) : (s.storeMb cells).slen = s.slen := rfl
@[simp] theorem State.storeMb_sblen (cells : List (Nat × Byte)) : (s.storeMb cells).sblen = s.sblen := rfl
@[simp] theorem State.storeMb_sbody (cells : List (Nat × Byte)) : (s.storeMb cells).sbody = s.sbody := rfl
@[simp] theorem State.storeMb_pending (cells : List (Nat × Byte)) : (s.storeMb cells).pending = s.pending := rfl
@[simp] theorem State.storeMb_answers (cells : List (Nat × Byte)) : (s.storeMb cells).answers = s.answers := rfl
@[simp] theorem State.storeMb_tick (cells : List (Nat × Byte)) : (s.storeMb cells).tick = s.tick := rfl

@[simp] theorem State.storeOut_e (cells : List (Nat × Byte)) (len : Half) : (s.storeOut cells len).e = s.e := rfl
@[simp] theorem State.storeOut_err (cells : List (Nat × Byte)) (len : Half) : (s.storeOut cells len).err = s.err := rfl
@[simp] theorem State.storeOut_einfo (cells : List (Nat × Byte)) (len : Half) : (s.storeOut cells len).einfo = s.einfo := rfl
@[simp] theorem State.storeOut_ctrl (cells : List (Nat × Byte)) (len : Half) : (s.storeOut cells len).ctrl = s.ctrl := rfl
@[simp] theorem State.storeOut_n (cells : List (Nat × Byte)) (len : Half) : (s.storeOut cells len).n = s.n := rfl
@[simp] theorem State.storeOut_k (cells : List (Nat × Byte)) (len : Half) : (s.storeOut cells len).k = s.k := rfl
@[simp] theorem State.storeOut_length (cells : List (Nat × Byte)) (len : Half) : (s.storeOut cells len).length = s.length := rfl
@[simp] theorem State.storeOut_chunk (cells : List (Nat × Byte)) (len : Half) : (s.storeOut cells len).chunk = s.chunk := rfl
@[simp] theorem State.storeOut_scnt (cells : List (Nat × Byte)) (len : Half) : (s.storeOut cells len).scnt = s.scnt := rfl
@[simp] theorem State.storeOut_olen (cells : List (Nat × Byte)) (len : Half) : (s.storeOut cells len).olen = len := rfl
@[simp] theorem State.storeOut_poly (cells : List (Nat × Byte)) (len : Half) : (s.storeOut cells len).poly = s.poly := rfl
@[simp] theorem State.storeOut_x (cells : List (Nat × Byte)) (len : Half) : (s.storeOut cells len).x = s.x := rfl
@[simp] theorem State.storeOut_data (cells : List (Nat × Byte)) (len : Half) : (s.storeOut cells len).data = s.data := rfl
@[simp] theorem State.storeOut_out (cells : List (Nat × Byte)) (len : Half) : (s.storeOut cells len).out = Memory.writeAll s.out cells := rfl
@[simp] theorem State.storeOut_ma (cells : List (Nat × Byte)) (len : Half) : (s.storeOut cells len).ma = s.ma := rfl
@[simp] theorem State.storeOut_mb (cells : List (Nat × Byte)) (len : Half) : (s.storeOut cells len).mb = s.mb := rfl
@[simp] theorem State.storeOut_sid (cells : List (Nat × Byte)) (len : Half) : (s.storeOut cells len).sid = s.sid := rfl
@[simp] theorem State.storeOut_slen (cells : List (Nat × Byte)) (len : Half) : (s.storeOut cells len).slen = s.slen := rfl
@[simp] theorem State.storeOut_sblen (cells : List (Nat × Byte)) (len : Half) : (s.storeOut cells len).sblen = s.sblen := rfl
@[simp] theorem State.storeOut_sbody (cells : List (Nat × Byte)) (len : Half) : (s.storeOut cells len).sbody = s.sbody := rfl
@[simp] theorem State.storeOut_pending (cells : List (Nat × Byte)) (len : Half) : (s.storeOut cells len).pending = s.pending := rfl
@[simp] theorem State.storeOut_answers (cells : List (Nat × Byte)) (len : Half) : (s.storeOut cells len).answers = s.answers := rfl
@[simp] theorem State.storeOut_tick (cells : List (Nat × Byte)) (len : Half) : (s.storeOut cells len).tick = s.tick := rfl

@[simp] theorem State.storeShares_e (ids : List (Nat × Byte)) (lens blens : List (Nat × Half)) (bodies : List (Nat × Byte)) : (s.storeShares ids lens blens bodies).e = s.e := rfl
@[simp] theorem State.storeShares_err (ids : List (Nat × Byte)) (lens blens : List (Nat × Half)) (bodies : List (Nat × Byte)) : (s.storeShares ids lens blens bodies).err = s.err := rfl
@[simp] theorem State.storeShares_einfo (ids : List (Nat × Byte)) (lens blens : List (Nat × Half)) (bodies : List (Nat × Byte)) : (s.storeShares ids lens blens bodies).einfo = s.einfo := rfl
@[simp] theorem State.storeShares_ctrl (ids : List (Nat × Byte)) (lens blens : List (Nat × Half)) (bodies : List (Nat × Byte)) : (s.storeShares ids lens blens bodies).ctrl = s.ctrl := rfl
@[simp] theorem State.storeShares_n (ids : List (Nat × Byte)) (lens blens : List (Nat × Half)) (bodies : List (Nat × Byte)) : (s.storeShares ids lens blens bodies).n = s.n := rfl
@[simp] theorem State.storeShares_k (ids : List (Nat × Byte)) (lens blens : List (Nat × Half)) (bodies : List (Nat × Byte)) : (s.storeShares ids lens blens bodies).k = s.k := rfl
@[simp] theorem State.storeShares_length (ids : List (Nat × Byte)) (lens blens : List (Nat × Half)) (bodies : List (Nat × Byte)) : (s.storeShares ids lens blens bodies).length = s.length := rfl
@[simp] theorem State.storeShares_chunk (ids : List (Nat × Byte)) (lens blens : List (Nat × Half)) (bodies : List (Nat × Byte)) : (s.storeShares ids lens blens bodies).chunk = s.chunk := rfl
@[simp] theorem State.storeShares_scnt (ids : List (Nat × Byte)) (lens blens : List (Nat × Half)) (bodies : List (Nat × Byte)) : (s.storeShares ids lens blens bodies).scnt = s.scnt := rfl
@[simp] theorem State.storeShares_olen (ids : List (Nat × Byte)) (lens blens : List (Nat × Half)) (bodies : List (Nat × Byte)) : (s.storeShares ids lens blens bodies).olen = s.olen := rfl
@[simp] theorem State.storeShares_poly (ids : List (Nat × Byte)) (lens blens : List (Nat × Half)) (bodies : List (Nat × Byte)) : (s.storeShares ids lens blens bodies).poly = s.poly := rfl
@[simp] theorem State.storeShares_x (ids : List (Nat × Byte)) (lens blens : List (Nat × Half)) (bodies : List (Nat × Byte)) : (s.storeShares ids lens blens bodies).x = s.x := rfl
@[simp] theorem State.storeShares_data (ids : List (Nat × Byte)) (lens blens : List (Nat × Half)) (bodies : List (Nat × Byte)) : (s.storeShares ids lens blens bodies).data = s.data := rfl
@[simp] theorem State.storeShares_out (ids : List (Nat × Byte)) (lens blens : List (Nat × Half)) (bodies : List (Nat × Byte)) : (s.storeShares ids lens blens bodies).out = s.out := rfl
@[simp] theorem State.storeShares_ma (ids : List (Nat × Byte)) (lens blens : List (Nat × Half)) (bodies : List (Nat × Byte)) : (s.storeShares ids lens blens bodies).ma = s.ma := rfl
@[simp] theorem State.storeShares_mb (ids : List (Nat × Byte)) (lens blens : List (Nat × Half)) (bodies : List (Nat × Byte)) : (s.storeShares ids lens blens bodies).mb = s.mb := rfl
@[simp] theorem State.storeShares_sid (ids : List (Nat × Byte)) (lens blens : List (Nat × Half)) (bodies : List (Nat × Byte)) : (s.storeShares ids lens blens bodies).sid = Memory.writeAll s.sid ids := rfl
@[simp] theorem State.storeShares_slen (ids : List (Nat × Byte)) (lens blens : List (Nat × Half)) (bodies : List (Nat × Byte)) : (s.storeShares ids lens blens bodies).slen = Memory.writeAll s.slen lens := rfl
@[simp] theorem State.storeShares_sblen (ids : List (Nat × Byte)) (lens blens : List (Nat × Half)) (bodies : List (Nat × Byte)) : (s.storeShares ids lens blens bodies).sblen = Memory.writeAll s.sblen blens := rfl
@[simp] theorem State.storeShares_sbody (ids : List (Nat × Byte)) (lens blens : List (Nat × Half)) (bodies : List (Nat × Byte)) : (s.storeShares ids lens blens bodies).sbody = Memory.writeAll s.sbody bodies := rfl
@[simp] theorem State.storeShares_pending (ids : List (Nat × Byte)) (lens blens : List (Nat × Half)) (bodies : List (Nat × Byte)) : (s.storeShares ids lens blens bodies).pending = s.pending := rfl
@[simp] theorem State.storeShares_answers (ids : List (Nat × Byte)) (lens blens : List (Nat × Half)) (bodies : List (Nat × Byte)) : (s.storeShares ids lens blens bodies).answers = s.answers := rfl
@[simp] theorem State.storeShares_tick (ids : List (Nat × Byte)) (lens blens : List (Nat × Half)) (bodies : List (Nat × Byte)) : (s.storeShares ids lens blens bodies).tick = s.tick := rfl

@[simp] theorem State.raise_e (e : CmdError) (w : Word) : (s.raise e w).e = s.e := rfl
@[simp] theorem State.raise_err (e : CmdError) (w : Word) : (s.raise e w).err = some e := rfl
@[simp] theorem State.raise_einfo (e : CmdError) (w : Word) : (s.raise e w).einfo = w := rfl
@[simp] theorem State.raise_ctrl (e : CmdError) (w : Word) : (s.raise e w).ctrl = s.ctrl := rfl
@[simp] theorem State.raise_n (e : CmdError) (w : Word) : (s.raise e w).n = s.n := rfl
@[simp] theorem State.raise_k (e : CmdError) (w : Word) : (s.raise e w).k = s.k := rfl
@[simp] theorem State.raise_length (e : CmdError) (w : Word) : (s.raise e w).length = s.length := rfl
@[simp] theorem State.raise_chunk (e : CmdError) (w : Word) : (s.raise e w).chunk = s.chunk := rfl
@[simp] theorem State.raise_scnt (e : CmdError) (w : Word) : (s.raise e w).scnt = s.scnt := rfl
@[simp] theorem State.raise_olen (e : CmdError) (w : Word) : (s.raise e w).olen = s.olen := rfl
@[simp] theorem State.raise_poly (e : CmdError) (w : Word) : (s.raise e w).poly = s.poly := rfl
@[simp] theorem State.raise_x (e : CmdError) (w : Word) : (s.raise e w).x = s.x := rfl
@[simp] theorem State.raise_data (e : CmdError) (w : Word) : (s.raise e w).data = s.data := rfl
@[simp] theorem State.raise_out (e : CmdError) (w : Word) : (s.raise e w).out = s.out := rfl
@[simp] theorem State.raise_ma (e : CmdError) (w : Word) : (s.raise e w).ma = s.ma := rfl
@[simp] theorem State.raise_mb (e : CmdError) (w : Word) : (s.raise e w).mb = s.mb := rfl
@[simp] theorem State.raise_sid (e : CmdError) (w : Word) : (s.raise e w).sid = s.sid := rfl
@[simp] theorem State.raise_slen (e : CmdError) (w : Word) : (s.raise e w).slen = s.slen := rfl
@[simp] theorem State.raise_sblen (e : CmdError) (w : Word) : (s.raise e w).sblen = s.sblen := rfl
@[simp] theorem State.raise_sbody (e : CmdError) (w : Word) : (s.raise e w).sbody = s.sbody := rfl
@[simp] theorem State.raise_pending (e : CmdError) (w : Word) : (s.raise e w).pending = s.pending := rfl
@[simp] theorem State.raise_answers (e : CmdError) (w : Word) : (s.raise e w).answers = s.answers := rfl
@[simp] theorem State.raise_tick (e : CmdError) (w : Word) : (s.raise e w).tick = s.tick := rfl

@[simp] theorem State.clearFault_e : (s.clearFault).e = s.e := rfl
@[simp] theorem State.clearFault_err : (s.clearFault).err = none := rfl
@[simp] theorem State.clearFault_einfo : (s.clearFault).einfo = 0 := rfl
@[simp] theorem State.clearFault_ctrl : (s.clearFault).ctrl = s.ctrl := rfl
@[simp] theorem State.clearFault_n : (s.clearFault).n = s.n := rfl
@[simp] theorem State.clearFault_k : (s.clearFault).k = s.k := rfl
@[simp] theorem State.clearFault_length : (s.clearFault).length = s.length := rfl
@[simp] theorem State.clearFault_chunk : (s.clearFault).chunk = s.chunk := rfl
@[simp] theorem State.clearFault_scnt : (s.clearFault).scnt = s.scnt := rfl
@[simp] theorem State.clearFault_olen : (s.clearFault).olen = s.olen := rfl
@[simp] theorem State.clearFault_poly : (s.clearFault).poly = s.poly := rfl
@[simp] theorem State.clearFault_x : (s.clearFault).x = s.x := rfl
@[simp] theorem State.clearFault_data : (s.clearFault).data = s.data := rfl
@[simp] theorem State.clearFault_out : (s.clearFault).out = s.out := rfl
@[simp] theorem State.clearFault_ma : (s.clearFault).ma = s.ma := rfl
@[simp] theorem State.clearFault_mb : (s.clearFault).mb = s.mb := rfl
@[simp] theorem State.clearFault_sid : (s.clearFault).sid = s.sid := rfl
@[simp] theorem State.clearFault_slen : (s.clearFault).slen = s.slen := rfl
@[simp] theorem State.clearFault_sblen : (s.clearFault).sblen = s.sblen := rfl
@[simp] theorem State.clearFault_sbody : (s.clearFault).sbody = s.sbody := rfl
@[simp] theorem State.clearFault_pending : (s.clearFault).pending = s.pending := rfl
@[simp] theorem State.clearFault_answers : (s.clearFault).answers = s.answers := rfl
@[simp] theorem State.clearFault_tick : (s.clearFault).tick = s.tick := rfl

@[simp] theorem State.answer_e (a : Response) : (s.answer a).e = s.e := rfl
@[simp] theorem State.answer_err (a : Response) : (s.answer a).err = s.err := rfl
@[simp] theorem State.answer_einfo (a : Response) : (s.answer a).einfo = s.einfo := rfl
@[simp] theorem State.answer_ctrl (a : Response) : (s.answer a).ctrl = s.ctrl := rfl
@[simp] theorem State.answer_n (a : Response) : (s.answer a).n = s.n := rfl
@[simp] theorem State.answer_k (a : Response) : (s.answer a).k = s.k := rfl
@[simp] theorem State.answer_length (a : Response) : (s.answer a).length = s.length := rfl
@[simp] theorem State.answer_chunk (a : Response) : (s.answer a).chunk = s.chunk := rfl
@[simp] theorem State.answer_scnt (a : Response) : (s.answer a).scnt = s.scnt := rfl
@[simp] theorem State.answer_olen (a : Response) : (s.answer a).olen = s.olen := rfl
@[simp] theorem State.answer_poly (a : Response) : (s.answer a).poly = s.poly := rfl
@[simp] theorem State.answer_x (a : Response) : (s.answer a).x = s.x := rfl
@[simp] theorem State.answer_data (a : Response) : (s.answer a).data = s.data := rfl
@[simp] theorem State.answer_out (a : Response) : (s.answer a).out = s.out := rfl
@[simp] theorem State.answer_ma (a : Response) : (s.answer a).ma = s.ma := rfl
@[simp] theorem State.answer_mb (a : Response) : (s.answer a).mb = s.mb := rfl
@[simp] theorem State.answer_sid (a : Response) : (s.answer a).sid = s.sid := rfl
@[simp] theorem State.answer_slen (a : Response) : (s.answer a).slen = s.slen := rfl
@[simp] theorem State.answer_sblen (a : Response) : (s.answer a).sblen = s.sblen := rfl
@[simp] theorem State.answer_sbody (a : Response) : (s.answer a).sbody = s.sbody := rfl
@[simp] theorem State.answer_pending (a : Response) : (s.answer a).pending = s.pending := rfl
@[simp] theorem State.answer_answers (a : Response) : (s.answer a).answers = a :: s.answers := rfl
@[simp] theorem State.answer_tick (a : Response) : (s.answer a).tick = s.tick := rfl

@[simp] theorem State.takeEvent_e (rest : List HostEvent) : (s.takeEvent rest).e = s.e := rfl
@[simp] theorem State.takeEvent_err (rest : List HostEvent) : (s.takeEvent rest).err = s.err := rfl
@[simp] theorem State.takeEvent_einfo (rest : List HostEvent) : (s.takeEvent rest).einfo = s.einfo := rfl
@[simp] theorem State.takeEvent_ctrl (rest : List HostEvent) : (s.takeEvent rest).ctrl = s.ctrl := rfl
@[simp] theorem State.takeEvent_n (rest : List HostEvent) : (s.takeEvent rest).n = s.n := rfl
@[simp] theorem State.takeEvent_k (rest : List HostEvent) : (s.takeEvent rest).k = s.k := rfl
@[simp] theorem State.takeEvent_length (rest : List HostEvent) : (s.takeEvent rest).length = s.length := rfl
@[simp] theorem State.takeEvent_chunk (rest : List HostEvent) : (s.takeEvent rest).chunk = s.chunk := rfl
@[simp] theorem State.takeEvent_scnt (rest : List HostEvent) : (s.takeEvent rest).scnt = s.scnt := rfl
@[simp] theorem State.takeEvent_olen (rest : List HostEvent) : (s.takeEvent rest).olen = s.olen := rfl
@[simp] theorem State.takeEvent_poly (rest : List HostEvent) : (s.takeEvent rest).poly = s.poly := rfl
@[simp] theorem State.takeEvent_x (rest : List HostEvent) : (s.takeEvent rest).x = s.x := rfl
@[simp] theorem State.takeEvent_data (rest : List HostEvent) : (s.takeEvent rest).data = s.data := rfl
@[simp] theorem State.takeEvent_out (rest : List HostEvent) : (s.takeEvent rest).out = s.out := rfl
@[simp] theorem State.takeEvent_ma (rest : List HostEvent) : (s.takeEvent rest).ma = s.ma := rfl
@[simp] theorem State.takeEvent_mb (rest : List HostEvent) : (s.takeEvent rest).mb = s.mb := rfl
@[simp] theorem State.takeEvent_sid (rest : List HostEvent) : (s.takeEvent rest).sid = s.sid := rfl
@[simp] theorem State.takeEvent_slen (rest : List HostEvent) : (s.takeEvent rest).slen = s.slen := rfl
@[simp] theorem State.takeEvent_sblen (rest : List HostEvent) : (s.takeEvent rest).sblen = s.sblen := rfl
@[simp] theorem State.takeEvent_sbody (rest : List HostEvent) : (s.takeEvent rest).sbody = s.sbody := rfl
@[simp] theorem State.takeEvent_pending (rest : List HostEvent) : (s.takeEvent rest).pending = rest := rfl
@[simp] theorem State.takeEvent_answers (rest : List HostEvent) : (s.takeEvent rest).answers = s.answers := rfl
@[simp] theorem State.takeEvent_tick (rest : List HostEvent) : (s.takeEvent rest).tick = s.tick + 1 := rfl

/-- Reset keeps the parameter, the host's lists and the event count, and nothing else of `s` (R270). -/
@[simp] theorem State.afterReset_poly : s.afterReset.poly = s.poly := rfl
@[simp] theorem State.afterReset_pending : s.afterReset.pending = s.pending := rfl
@[simp] theorem State.afterReset_answers : s.afterReset.answers = s.answers := rfl
@[simp] theorem State.afterReset_tick : s.afterReset.tick = s.tick := rfl
@[simp] theorem State.afterReset_err : s.afterReset.err = none := rfl
@[simp] theorem State.afterReset_einfo : s.afterReset.einfo = 0 := rfl
@[simp] theorem State.afterReset_n : s.afterReset.n = 1 := rfl
@[simp] theorem State.afterReset_k : s.afterReset.k = 1 := rfl

/-- Reading a register after writing one (R21: no register is hardwired). -/
theorem State.getE_setE (r q : Reg) (v : Byte) : (s.setE r v).getE q = if q = r then v else s.getE q := by
  rcases eq_or_ne q r with rfl | h
  · simp [State.getE, State.setE]
  · have h' : r.val ≠ q.val := fun hv => h (Fin.ext hv.symm)
    simp [State.getE, State.setE, h, Vector.getElem_set_ne _ _ h']

@[simp] theorem State.getE_setE_self (r : Reg) (v : Byte) : (s.setE r v).getE r = v := by simp [State.getE_setE]

/-- A register write changes nothing but the register file. -/
theorem State.setE_frame (r : Reg) (v : Byte) : { s.setE r v with e := s.e } = s := rfl

end Sys2Proof.Machine
end

