-- ==== Sys2Proof/Laws/Stores.lean ====
section
/-! SUPPORT. What each list of stores holds: which index, which value. -/

namespace Sys2Proof.Machine

theorem mem_cornerStores {k : Nat} {a : Mat} {x : Nat × Byte} :
    x ∈ cornerStores k a ↔ ∃ r c, r < k ∧ c < k ∧ x = (matIndex r c, entry a r c) := by
  simp only [cornerStores, List.mem_flatMap, List.mem_map, List.mem_range]
  constructor
  · rintro ⟨r, hr, c, hc, rfl⟩; exact ⟨r, c, hr, hc, rfl⟩
  · rintro ⟨r, c, hr, hc, rfl⟩; exact ⟨r, hr, c, hc, rfl⟩

/-- The index of a matrix cell names its row and column (R66: the row stride is 256). -/
theorem matIndex_inj {r c r' c' : Nat} (hc : c < 256) (hc' : c' < 256) (h : matIndex r c = matIndex r' c') :
    r = r' ∧ c = c' := by
  unfold matIndex at h; omega

/-- The index of a body byte names its slot and position (R66: the slot stride is 65536). -/
theorem bodyIndex_inj {s i s' i' : Nat} (hi : i < 65536) (hi' : i' < 65536) (h : bodyIndex s i = bodyIndex s' i') :
    s = s' ∧ i = i' := by
  unfold bodyIndex at h; omega

/-- A corner that is stored reads back entry by entry. -/
theorem read_cornerStores (m : Memory 8) {k r c : Nat} (a : Mat) (hk : k ≤ 256) (hr : r < k) (hc : c < k) :
    Memory.read (Memory.writeAll m (cornerStores k a)) (matIndex r c) = some (entry a r c) := by
  refine Memory.read_writeAll_of_mem m (mem_cornerStores.2 ⟨r, c, hr, hc, rfl⟩) fun x hx he => ?_
  obtain ⟨r', c', hr', hc', rfl⟩ := mem_cornerStores.1 hx
  obtain ⟨rfl, rfl⟩ := matIndex_inj (by omega) (by omega) he
  rfl

/-- Cells outside the corner read as before. -/
theorem read_cornerStores_outside (m : Memory 8) {k b : Nat} (a : Mat)
    (h : ∀ r c, r < k → c < k → b ≠ matIndex r c) :
    Memory.read (Memory.writeAll m (cornerStores k a)) b = Memory.read m b := by
  refine Memory.read_writeAll_of_notMem m fun x hx he => ?_
  obtain ⟨r, c, hr, hc, rfl⟩ := mem_cornerStores.1 hx
  exact h r c hr hc he.symm

/-- One store to each of the slots 0..n-1. -/
theorem read_slotStores {w : Nat} (m : Memory w) (n : Nat) (f : Nat → BitVec w) (a : Nat) :
    Memory.read (Memory.writeAll m ((List.range n).map fun slot => (slot, f slot))) a =
      if a < n then some (f a) else Memory.read m a := by
  split_ifs with h
  · refine Memory.read_writeAll_of_mem m ?_ fun x hx he => ?_
    · exact List.mem_map.2 ⟨a, List.mem_range.2 h, rfl⟩
    · obtain ⟨b, -, rfl⟩ := List.mem_map.1 hx
      simp only at he; rw [he]
  · refine Memory.read_writeAll_of_notMem m fun x hx he => ?_
    obtain ⟨b, hb, rfl⟩ := List.mem_map.1 hx
    exact h (he ▸ List.mem_range.1 hb)

theorem mem_bodyStores {s : State} {x : Nat × Byte} :
    x ∈ bodyStores s ↔ ∃ slot c, slot < s.n.toNat ∧ c < bodyLen s ∧ x = (bodyIndex slot c, shareByte s (slot + 1) c) := by
  simp only [bodyStores, List.mem_flatMap, List.mem_map, List.mem_range]
  constructor
  · rintro ⟨r, hr, c, hc, rfl⟩; exact ⟨r, c, hr, hc, rfl⟩
  · rintro ⟨r, c, hr, hc, rfl⟩; exact ⟨r, hr, c, hc, rfl⟩

/-- The quotient `ceil(L / K)` of a 16-bit length fits in 16 bits (R142). -/
theorem bodyLen_lt (s : State) (hk : 1 ≤ s.k.toNat) : bodyLen s < 65536 := by
  have h : s.length.toNat < 65536 := s.length.isLt
  unfold bodyLen ceilDiv
  rw [Nat.div_lt_iff_lt_mul (by omega)]
  omega

theorem mem_outStores {s : State} {d : Mat} {x : Nat × Byte} :
    x ∈ outStores s d ↔ ∃ i j, i < (firstBodyLen s).toNat ∧ j < s.k.toNat ∧
      i * s.k.toNat + j < (firstLen s).toNat ∧
      x = (i * s.k.toNat + j, (recon s.poly s.k.toNat d (bodyColumn s i)).getD j gfZero) := by
  simp only [outStores, List.mem_flatMap, List.mem_filterMap, List.mem_range]
  constructor
  · rintro ⟨i, hi, j, hj, h⟩
    split_ifs at h with hl
    exact ⟨i, j, hi, hj, hl, (Option.some.inj h).symm⟩
  · rintro ⟨i, j, hi, hj, hl, rfl⟩
    exact ⟨i, hi, j, hj, by simp [hl]⟩

/-- An entry of the reconstructed vector (R182). -/
theorem recon_getD (p : Poly) {k j : Nat} (d : Mat) (y : Nat → Byte) (hj : j < k) :
    (recon p k d y).getD j gfZero = gfSum ((List.range k).map fun x => gfMul p (entry d j x) (y x)) := by
  simp [recon, hj]

/-- Row and column of an output index (R183 step 7: `OUT[i·K + j]`). -/
theorem outIndex_inj {k i j i' j' : Nat} (hj : j < k) (hj' : j' < k) (h : i * k + j = i' * k + j') : i = i' ∧ j = j' := by
  have hk : 0 < k := by omega
  have div : ∀ a b, b < k → (a * k + b) / k = a := fun a b hb => by
    rw [Nat.mul_comm, Nat.mul_add_div hk, Nat.div_eq_of_lt hb, Nat.add_zero]
  have e : i = i' := by rw [← div i j hj, h, div i' j' hj']
  subst e; exact ⟨rfl, by omega⟩

/-- `B = ceil(L / K)` is the number of chunk positions that reach every index below L (R183 steps 3 and 7). -/
theorem outIndex_chunk_lt {s : State} {a : Nat} (hk : 1 ≤ s.k.toNat) (hb : bodyLenWrong s = false)
    (ha : a < (firstLen s).toNat) : a / s.k.toNat < (firstBodyLen s).toNat := by
  have e : (firstBodyLen s).toNat = ((firstLen s).toNat + s.k.toNat - 1) / s.k.toNat := not_not.1 (of_decide_eq_false hb)
  have := Nat.div_mul_le_self a s.k.toNat
  have := Nat.mul_comm (a / s.k.toNat) s.k.toNat
  rw [e, Nat.lt_div_iff_mul_lt (by omega)]
  omega

/-- Where the body length is right, step 7 stores to every index below L and to no other. -/
theorem outStores_covers {s : State} {d : Mat} {a : Nat} (hk : 1 ≤ s.k.toNat) (hb : bodyLenWrong s = false) :
    a < (firstLen s).toNat ↔ ∃ b, (a, b) ∈ outStores s d := by
  constructor
  · intro ha
    have e : a / s.k.toNat * s.k.toNat + a % s.k.toNat = a := by rw [Nat.mul_comm]; exact Nat.div_add_mod a _
    exact ⟨_, mem_outStores.2 ⟨a / s.k.toNat, a % s.k.toNat, outIndex_chunk_lt hk hb ha, Nat.mod_lt _ (by omega),
      by omega, by rw [e]⟩⟩
  · rintro ⟨b, hm⟩
    obtain ⟨i, j, -, -, hl, e⟩ := mem_outStores.1 hm
    obtain ⟨rfl, -⟩ := Prod.mk.inj e
    exact hl

/-- The output bytes of step 7 read back (R182). -/
theorem read_outStores {s : State} (m : Memory 8) {d : Mat} {i j : Nat} (hk : 1 ≤ s.k.toNat) (hb : bodyLenWrong s = false)
    (hj : j < s.k.toNat) (hl : i * s.k.toNat + j < (firstLen s).toNat) :
    Memory.read (Memory.writeAll m (outStores s d)) (i * s.k.toNat + j) =
      some (gfSum ((List.range s.k.toNat).map fun x => gfMul s.poly (entry d j x) (bodyColumn s i x))) := by
  obtain ⟨b, hm⟩ := (outStores_covers (d := d) hk hb).1 hl
  refine Memory.read_writeAll_of_mem m (v := _) ?_ fun c hc he => ?_
  · obtain ⟨i', j', hi', hj', hl', e⟩ := mem_outStores.1 hm
    obtain ⟨rfl, rfl⟩ := outIndex_inj hj hj' (Prod.mk.inj e).1
    exact mem_outStores.2 ⟨i, j, hi', hj, hl, by rw [recon_getD s.poly d _ hj]⟩
  · obtain ⟨i', j', -, hj', -, rfl⟩ := mem_outStores.1 hc
    obtain ⟨rfl, rfl⟩ := outIndex_inj hj hj' he.symm
    exact recon_getD s.poly d _ hj

/-- No two reads of one command share a free value (R56). -/
theorem readNo_inj {p i j p' i' j' : Nat} (hi : i < 65536) (hi' : i' < 65536) (hj : j < 256) (hj' : j' < 256)
    (h : readNo p i j = readNo p' i' j') : p = p' ∧ i = i' ∧ j = j' := by
  unfold readNo at h; omega

/-- A cell that has been written reads as what was written, whatever the free values are. -/
theorem byteAt_of_read {s : State} {m : Memory 8} {a no : Nat} {v : Byte} (h : Memory.read m a = some v) :
    s.byteAt m a no = v := by
  simp [State.byteAt, h]

theorem halfAt_of_read {s : State} {m : Memory 16} {a no : Nat} {v : Half} (h : Memory.read m a = some v) :
    s.halfAt m a no = v := by
  simp [State.halfAt, h]

end Sys2Proof.Machine
end

