-- ==== Sys2Proof/Laws/Step.lean ====
section
/-! SUPPORT. Inversion: everything a command, a bus write and a step can do, said once. -/

namespace Sys2Proof.Machine

/-- A field command with a partial operation writes its register or raises DomainError. -/
theorem writeOrDomainError_cases (s : State) (rd : Reg) (v : Option Byte) (i : Instr) :
    (∃ b, v = some b ∧ writeOrDomainError s rd v i = s.setE rd b) ∨
    (v = none ∧ writeOrDomainError s rd v i = s.raise .domain (encode i)) := by
  cases v with
  | none => exact .inr ⟨rfl, rfl⟩
  | some b => exact .inl ⟨b, rfl, rfl⟩

/-- The steps of DECODE, in order (R183, R187). -/
theorem decodeMatrix_error {s : State} {e : CmdError} (h : decodeMatrix s = .error e) : e ∈ errorsOf .decode := by
  unfold decodeMatrix at h
  simp only [errorsOf]
  split_ifs at h
  · cases h; simp
  · cases h; simp
  · cases h; simp
  · cases h; simp
  · cases h; simp
  · split at h
    · cases h; simp
    · cases h

/-- What holds where no check of DECODE fails. -/
theorem decodeMatrix_ok {s : State} {d : Mat} (h : decodeMatrix s = .ok d) :
    s.k.toNat ≤ s.scnt.toNat ∧ lengthsDisagree s = false ∧ idAboveN s = false ∧ bodyLenWrong s = false ∧
    selectedIdZero s = false ∧ ginv s.poly s.k.toNat (decodeVand s) = some d := by
  unfold decodeMatrix at h
  split_ifs at h with h1 h2 h3 h4 h5
  split at h
  · cases h
  · next d' hd => cases h; exact ⟨Nat.le_of_not_lt h1, by simpa using h2, by simpa using h3, by simpa using h4, by simpa using h5, hd⟩

/-- Everything a command can do: raise one of its errors and change nothing else, or have the effect of its rule. -/
theorem exec_cases {i : Instr} {s t : State} (h : exec i s = .next t) :
    (∃ e ∈ errorsOf i, t = s.raise e (encode i)) ∨
    (∃ rd v, destination i = some rd ∧ t = s.setE rd v) ∨
    (∃ n k, i = .config n k ∧ configInvalid n k = false ∧ t = s.setConfig (BitVec.ofNat 8 n) (BitVec.ofNat 8 k)) ∨
    (i = .vand ∧ t = s.storeMa (cornerStores s.k.toNat (vandOf s.poly s.k.toNat (nodeByte s)))) ∨
    (∃ r, i = .minv ∧ ginv s.poly s.k.toNat (maCorner s) = some r ∧ t = s.storeMb (cornerStores s.k.toNat r)) ∨
    (i = .encode ∧ t = s.storeShares (idStores s) (lenStores s) (bodyLenStores s) (bodyStores s)) ∨
    (∃ d, i = .decode ∧ decodeMatrix s = .ok d ∧ t = s.storeOut (outStores s d) (firstLen s)) := by
  cases i with
  | gfadd rd ra rb => cases h; exact .inr (.inl ⟨rd, _, rfl, rfl⟩)
  | gfsub rd ra rb => cases h; exact .inr (.inl ⟨rd, _, rfl, rfl⟩)
  | gfmul rd ra rb => cases h; exact .inr (.inl ⟨rd, _, rfl, rfl⟩)
  | gfdiv rd ra rb =>
    cases h
    rcases writeOrDomainError_cases s rd (gfDiv s.poly (s.getE ra) (s.getE rb)) (.gfdiv rd ra rb) with ⟨b, -, e⟩ | ⟨-, e⟩
    · exact .inr (.inl ⟨rd, b, rfl, e⟩)
    · exact .inl ⟨.domain, by simp [errorsOf], e⟩
  | gfinv rd ra =>
    cases h
    rcases writeOrDomainError_cases s rd (gfInverse s.poly (s.getE ra)) (.gfinv rd ra) with ⟨b, -, e⟩ | ⟨-, e⟩
    · exact .inr (.inl ⟨rd, b, rfl, e⟩)
    · exact .inl ⟨.domain, by simp [errorsOf], e⟩
  | gfpow rd ra rb => cases h; exact .inr (.inl ⟨rd, _, rfl, rfl⟩)
  | gfzero rd => cases h; exact .inr (.inl ⟨rd, _, rfl, rfl⟩)
  | gfone rd => cases h; exact .inr (.inl ⟨rd, _, rfl, rfl⟩)
  | gfpowi rd ra imm8 => cases h; exact .inr (.inl ⟨rd, _, rfl, rfl⟩)
  | config n k =>
    cases h
    by_cases hv : configInvalid n k = true
    · exact .inl ⟨.configuration, by simp [errorsOf], by simp [hv]⟩
    · exact .inr (.inr (.inl ⟨n, k, rfl, by simpa using hv, by simp [hv]⟩))
  | peval rd ra => cases h; exact .inr (.inl ⟨rd, _, rfl, rfl⟩)
  | vand => cases h; exact .inr (.inr (.inr (.inl ⟨rfl, rfl⟩)))
  | minv =>
    cases h
    cases hg : ginv s.poly s.k.toNat (maCorner s) with
    | none => exact .inl ⟨.singularMatrix, by simp [errorsOf], by simp⟩
    | some r => exact .inr (.inr (.inr (.inr (.inl ⟨r, rfl, rfl, by simp⟩))))
  | encode => cases h; exact .inr (.inr (.inr (.inr (.inr (.inl ⟨rfl, rfl⟩)))))
  | decode =>
    cases h
    cases hd : decodeMatrix s with
    | error e => exact .inl ⟨e, decodeMatrix_error hd, by simp⟩
    | ok d => exact .inr (.inr (.inr (.inr (.inr (.inr ⟨d, rfl, rfl, by simp⟩)))))

/-- Everything issuing a word can do (R242). -/
theorem issue_cases {w : Word} {s t : State} (h : issue w s = .next t) :
    (s.err ≠ none ∧ t = s) ∨
    (s.err = none ∧ (∃ why, decode w = .error why) ∧ t = s.raise .illegalCommand w) ∨
    (s.err = none ∧ ∃ i, decode w = .ok i ∧ exec i s = .next t) := by
  unfold issue at h
  split_ifs at h with hf
  · cases h
    exact .inl ⟨fun he => by simp [State.faulted, he] at hf, rfl⟩
  · have he : s.err = none := by simpa [State.faulted] using hf
    split at h
    · next why hw => cases h; exact .inr (.inl ⟨he, ⟨why, hw⟩, rfl⟩)
    · next i hw => exact .inr (.inr ⟨he, i, hw, h⟩)

/-- Everything a host write can do (R62, R64, R65). -/
theorem busWrite_cases {off d : Word} {s t : State} (h : busWrite off d s = .next t) :
    (cellAt off = none ∧ t = s.answer .busError) ∨
    (cellAt off = some .cmd ∧ issue d (s.answer .ok) = .next t) ∨
    (∃ c, cellAt off = some c ∧ c ≠ .cmd ∧ t = (writeCell s d c).answer .ok) := by
  unfold busWrite at h
  split at h
  · next hc => cases h; exact .inl ⟨hc, rfl⟩
  · next hc => exact .inr (.inl ⟨hc, h⟩)
  · next c hne hc => cases h; exact .inr (.inr ⟨c, hc, fun e => hne e, rfl⟩)

/-- Everything a step can do (R287): nothing, a read, a write or reset. -/
theorem step_cases {s t : State} (h : step s = .next t) :
    (s.pending = [] ∧ t = s) ∨
    (∃ off rest, s.pending = .read off :: rest ∧ t = busRead off (s.takeEvent rest)) ∨
    (∃ off d rest, s.pending = .write off d :: rest ∧ busWrite off d (s.takeEvent rest) = .next t) ∨
    (∃ rest, s.pending = .reset :: rest ∧ t = (s.takeEvent rest).afterReset) := by
  unfold step at h
  split at h
  · next hp => cases h; exact .inl ⟨hp, rfl⟩
  · next ev rest hp =>
    cases ev with
    | read off => cases h; exact .inr (.inl ⟨off, rest, hp, rfl⟩)
    | write off d => exact .inr (.inr (.inl ⟨off, d, rest, hp, h⟩))
    | reset => cases h; exact .inr (.inr (.inr ⟨rest, hp, rfl⟩))

end Sys2Proof.Machine
end

