-- ==== Sys2Proof/Tests/Slice0.lean ====
section
/-! SUPPORT. The model's own tests: the syntax check refuses ill-formed terms; words written out from the formats decode;
single commands and single transactions give the values of spec/95_test_vectors.md (its section is named at each test);
and, for every statement that has hypotheses, a concrete state and operands that meet them together. -/

namespace Sys2Proof.Tests

open Sys2Proof Sys2Proof.Machine

/-! ### Helpers -/

/-- The next state, if there is one. -/
def next? : Host.Outcome State Fault Refusal → Option State
  | .next t => some t
  | .fault _ => none
  | .refused _ => none

/-- The state after reset of a block with this `POLY`. -/
def onPoly (p : Poly) : State := { State.reset with poly := p }

/-- The same with `E0` and `E1` loaded. -/
def loaded (p : Poly) (a b : Byte) : State := ((onPoly p).setE 0 a).setE 1 b

/-- One field of the state after one command. -/
def after {α : Type} (i : Instr) (s : State) (f : State → α) : Option α := (next? (exec i s)).map f

/-- One field of the state after one event at the port. -/
def event {α : Type} (ev : HostEvent) (s : State) (f : State → α) : Option α :=
  (next? (step { s with pending := [ev] })).map f

/-! ### WellFormed: each check refuses -/

theorem test_wellFormed_gfpowi_imm8 : (Instr.gfpowi 1 0 256).wellFormed = false ∧ (Instr.gfpowi 1 0 255).wellFormed = true := by
  decide

theorem test_wellFormed_config_n12 : (Instr.config 4096 1).wellFormed = false ∧ (Instr.config 4095 1).wellFormed = true := by
  decide

theorem test_wellFormed_config_k12 : (Instr.config 1 4096).wellFormed = false ∧ (Instr.config 1 4095).wellFormed = true := by
  decide

/-! ### Decoding: words from 95 section 2.1, every command -/

theorem test_decode_gfadd : decodeTableWord 32 0x10201000 = some (.gfadd 2 0 1) := by decide
theorem test_decode_gfsub : decodeTableWord 32 0x11312000 = some (.gfsub 3 1 2) := by decide
theorem test_decode_gfmul : decodeTableWord 32 0x12201000 = some (.gfmul 2 0 1) := by decide
theorem test_decode_gfdiv : decodeTableWord 32 0x13423000 = some (.gfdiv 4 2 3) := by decide
theorem test_decode_gfinv : decodeTableWord 32 0x14100000 = some (.gfinv 1 0) := by decide
theorem test_decode_gfpow : decodeTableWord 32 0x15756000 = some (.gfpow 7 5 6) := by decide
theorem test_decode_gfzero : decodeTableWord 32 0x16900000 = some (.gfzero 9) := by decide
theorem test_decode_gfone : decodeTableWord 32 0x17A00000 = some (.gfone 10) := by decide
theorem test_decode_gfpowi : decodeTableWord 32 0x183000FE = some (.gfpowi 3 0 254) := by decide
theorem test_decode_config : decodeTableWord 32 0x200FF064 = some (.config 255 100) := by decide
theorem test_decode_peval : decodeTableWord 32 0x21FF0000 = some (.peval 15 15) := by decide
theorem test_decode_vand : decodeTableWord 32 0x22000000 = some .vand := by decide
theorem test_decode_minv : decodeTableWord 32 0x23000000 = some .minv := by decide
theorem test_decode_encode : decodeTableWord 32 0x24000000 = some .encode := by decide
theorem test_decode_decode : decodeTableWord 32 0x25000000 = some .decode := by decide

/-- The illegal words of 95 section 2.1: unassigned opcodes. -/
theorem test_decode_unassigned :
    ([0x00000000, 0xFFFFFFFF, 0x0F000000, 0x19000000, 0x1F000000, 0x26000000] : List Word).all
      (fun w => decide (decode w = .error .unassignedOpcode)) = true := by decide +kernel

/-- The illegal words of 95 section 2.1: a `zero` field that is not 0, each format that has one. -/
theorem test_decode_zero_fields :
    ([0x10000001, 0x12345001, 0x14100001, 0x21101000, 0x18300100, 0x16900001, 0x17A10000, 0x22000001, 0x25800000] :
      List Word).all (fun w => decide (decode w = .error .nonzeroZeroField)) = true := by decide +kernel

/-! ### One command (95 sections 2.2 to 2.6) -/

theorem test_gfadd : after (.gfadd 2 0 1) (loaded 0x11B 0x57 0x83) (·.getE 2) = some 0xD4 := by decide
theorem test_gfadd_one_register : after (.gfadd 0 0 0) (loaded 0x11B 0x57 0x83) (·.getE 0) = some 0x00 := by decide

theorem test_gfsub : after (.gfsub 2 0 1) (loaded 0x11B 0xAA 0x55) (·.getE 2) = some 0xFF := by decide

theorem test_gfmul_11B : after (.gfmul 2 0 1) (loaded 0x11B 0x57 0x83) (·.getE 2) = some 0xC1 := by decide +kernel
theorem test_gfmul_11D : after (.gfmul 0 0 1) (loaded 0x11D 0x57 0x83) (·.getE 0) = some 0x31 := by decide +kernel

theorem test_gfdiv : after (.gfdiv 2 0 1) (loaded 0x11B 0x01 0x02) (·.getE 2) = some 0x8D := by decide +kernel
theorem test_gfdiv_by_zero :
    after (.gfdiv 0 0 1) (loaded 0x11B 0x57 0x00) (fun t => (t.getE 0, errCode t.err, t.einfo)) =
      some (0x57, 5, 0x13001000) := by decide +kernel

theorem test_gfinv : after (.gfinv 1 0) (loaded 0x11D 0x53 0x00) (·.getE 1) = some 0x8C := by decide +kernel
/-- Program P2, line 4. -/
theorem test_gfinv_of_zero :
    after (.gfinv 3 2) (onPoly 0x11B) (fun t => (t.getE 3, errCode t.err, t.einfo)) = some (0x00, 5, 0x14320000) := by
  decide +kernel

theorem test_gfpow : after (.gfpow 2 0 1) (loaded 0x11D 0x02 0x08) (·.getE 2) = some 0x1D := by decide +kernel
theorem test_gfpow_zero_to_zero : after (.gfpow 2 0 1) (loaded 0x11B 0x00 0x00) (·.getE 2) = some 0x01 := by decide +kernel

theorem test_gfzero : after (.gfzero 1) (loaded 0x11B 0x57 0x83) (fun t => (t.getE 0, t.getE 1)) = some (0x57, 0x00) := by
  decide

theorem test_gfone : after (.gfone 0) (loaded 0x11B 0x57 0x83) (fun t => (t.getE 0, t.getE 1)) = some (0x01, 0x83) := by
  decide

theorem test_gfpowi : after (.gfpowi 1 0 4) (loaded 0x11B 0x03 0x00) (·.getE 1) = some 0x11 := by decide +kernel
theorem test_gfpowi_51 : after (.gfpowi 1 0 51) (loaded 0x11B 0x02 0x00) (·.getE 1) = some 0x01 := by decide +kernel

theorem test_config : after (.config 7 5) (onPoly 0x11B) (fun t => (t.n, t.k, errCode t.err)) = some (7, 5, 0) := by decide
theorem test_config_256_100 :
    after (.config 256 100) (onPoly 0x11B) (fun t => (t.n, t.k, errCode t.err, t.einfo)) = some (1, 1, 1, 0x20100064) := by
  decide

/-- 95 section 2.3: `K = 3, LENGTH = 5, DATA = 01 02 03 04 05`, `N = 5`. -/
def fiveBytes : State :=
  { onPoly 0x11B with n := 5, k := 3, length := 5, data := [(0, 1), (1, 2), (2, 3), (3, 4), (4, 5)] }

theorem test_peval : after (.peval 1 0) (fiveBytes.setE 0 0x02) (·.getE 1) = some 0x09 := by decide +kernel
theorem test_peval_padded :
    after (.peval 1 0) ({ fiveBytes with chunk := 1 }.setE 0 0x03) (·.getE 1) = some 0x0B := by decide +kernel

theorem test_vand :
    after .vand { onPoly 0x11B with n := 3, k := 3, x := [(0, 0x02), (1, 0x04), (2, 0x05)] } (·.ma) =
      some [(0, 0x01), (1, 0x02), (2, 0x04), (256, 0x01), (257, 0x04), (258, 0x10), (512, 0x01), (513, 0x05), (514, 0x11)] := by
  decide +kernel
/-- A zero node and a repeated node are accepted. -/
theorem test_vand_zero_and_repeated_nodes :
    after .vand { onPoly 0x11B with n := 2, k := 2, x := [(0, 0x00), (1, 0x00)] } (fun t => (t.ma, t.err)) =
      some ([(0, 0x01), (1, 0x00), (256, 0x01), (257, 0x00)], none) := by decide +kernel

/-- 95 section 2.4: the diagonal matrix `02 00 / 00 03`. -/
def diagonal : State := { onPoly 0x11B with n := 2, k := 2, ma := [(0, 0x02), (1, 0x00), (256, 0x00), (257, 0x03)] }

/-- 95 section 2.4: the permutation matrix `00 01 / 01 00`. -/
def permutation : State := { diagonal with ma := [(0, 0x00), (1, 0x01), (256, 0x01), (257, 0x00)] }

theorem test_minv : after .minv diagonal (·.mb) = some [(0, 0x8D), (1, 0x00), (256, 0x00), (257, 0xF6)] := by decide +kernel
theorem test_minv_no_pivoting :
    after .minv permutation (fun t => (t.mb, errCode t.err, t.einfo)) = some ([], 4, 0x23000000) := by decide +kernel

theorem test_encode_bodies :
    after .encode fiveBytes (·.sbody) =
      some [(0, 0x00), (1, 0x01), (65536, 0x09), (65537, 0x0E), (131072, 0x08), (131073, 0x0B), (196608, 0x39),
        (196609, 0x10), (262144, 0x38), (262145, 0x15)] := by decide +kernel
theorem test_encode_ids_and_lengths :
    after .encode fiveBytes (fun t => (t.sid, Memory.read t.slen 4, Memory.read t.sblen 4, Memory.read t.slen 5)) =
      some ([(0, 1), (1, 2), (2, 3), (3, 4), (4, 5)], some 5, some 2, none) := by decide +kernel

/-- 95 section 2.5: the shares of ids 2, 4, 5 in slots 0, 1, 2. -/
def threeShares : State :=
  { onPoly 0x11B with
    n := 5, k := 3, scnt := 3, sid := [(0, 2), (1, 4), (2, 5)], slen := [(0, 5), (1, 5), (2, 5)],
    sblen := [(0, 2), (1, 2), (2, 2)],
    sbody := [(0, 0x09), (1, 0x0E), (65536, 0x39), (65537, 0x10), (131072, 0x38), (131073, 0x15)] }

theorem test_decode_command :
    after .decode threeShares (fun t => (t.out, t.olen, t.err)) =
      some ([(0, 1), (1, 2), (2, 3), (3, 4), (4, 5)], 5, none) := by decide +kernel
/-- Ids 2 2 5 6 with `N = 5`: InconsistentShares is tested before SingularMatrix, over unselected slots too. -/
theorem test_decode_priority :
    after .decode
        { threeShares with
          scnt := 4, sid := [(0, 2), (1, 2), (2, 5), (3, 6)], slen := [(0, 5), (1, 5), (2, 5), (3, 5)],
          sblen := [(0, 2), (1, 2), (2, 2), (3, 2)] }
        (fun t => (t.out, t.olen, errCode t.err, t.einfo)) = some ([], 0, 3, 0x25000000) := by decide +kernel

/-! ### One transaction (95 section 2.7) -/

/-- Program P2 after line 4. -/
def faultedState : State := { onPoly 0x11B with err := some .domain, einfo := 0x14320000, ctrl := 1 }

theorem test_faulted_discards_legal_word :
    event (.write 0 0x17400000) faultedState (fun t => (t.getE 4, errCode t.err, t.einfo, t.answers)) =
      some (0, 5, 0x14320000, [.ok]) := by decide
theorem test_faulted_discards_illegal_word :
    event (.write 0 0x19000000) faultedState (fun t => (errCode t.err, t.einfo)) = some (5, 0x14320000) := by decide
theorem test_illegal_word :
    event (.write 0 0x12345001) (onPoly 0x11B) (fun t => (errCode t.err, t.einfo, t.answers)) =
      some (6, 0x12345001, [.ok]) := by decide
theorem test_clear :
    event (.write 1 0xFFFFFFFF) faultedState (fun t => (errCode t.err, t.einfo, t.irq)) = some (0, 0, false) := by decide
theorem test_irq_follows_ie :
    faultedState.irq = true ∧ event (.write 3 0xFE) faultedState (fun t => (t.irq, errCode t.err)) = some (false, 5) := by
  decide
theorem test_wide_write_keeps_low_bits :
    event (.write 6 0x12345) (onPoly 0x11B) (·.length) = some 0x2345 := by decide
theorem test_read_only_cell :
    event (.write 0xA 0x11D) (onPoly 0x11B) (fun t => (t.poly, t.answers)) = some (0x11B, [.ok]) := by decide
theorem test_read_poly : event (.read 0xA) (onPoly 0x11B) (·.answers) = some [.okRead 0x11B] := by decide
theorem test_read_cmd : event (.read 0) faultedState (·.answers) = some [.okRead 0] := by decide
theorem test_holes :
    ([0xB, 0x20, 0x1FF, 0x500, 0x300FF, 0x3FF00, 0x50000, 0x1FF0000, 0xFFFFFFFF] : List Word).all (fun off =>
      decide (event (.read off) faultedState (fun t => (t.answers, t.err)) = some ([.busError], some .domain))) = true := by
  decide +kernel
theorem test_highest_cell : cellAt 0x1FEFFFF = some (.sbody 254 65535) := by decide
theorem test_map_rows :
    cellAt 0x1F = some (.e 15) ∧ cellAt 0x1FE = some (.x 254) ∧ cellAt 0x2FE = some (.sid 254) ∧
    cellAt 0x304 = some (.slen 4) ∧ cellAt 0x400 = some (.sblen 0) ∧ cellAt 0x1FFFF = some (.data 65535) ∧
    cellAt 0x20000 = some (.out 0) ∧ cellAt 0x30102 = some (.ma 1 2) ∧ cellAt 0x4FEFE = some (.mb 254 254) := by decide
theorem test_reset_event :
    event .reset { faultedState with n := 7, k := 5, x := [(0, 1)] } (fun t => (t.n, t.k, errCode t.err, t.poly)) =
      some (1, 1, 0, 0x11B) := by decide
theorem test_withFetchWord_runs_first :
    (next? (step (State.reset.withFetchWord 32 0x17500000))).map (·.getE 5) = some 0x01 := by decide
theorem test_idle : (next? (step State.reset)).map (·.tick) = some 0 := by decide

/-! ### Witnesses: states and operands that meet all hypotheses of a statement together, clause by clause

Each theorem's name is that of the statement. Where a statement ranges over words, offsets or indices, the values are the
ends of the ranges. -/

/-- `E15` is nonzero, `E14` is zero. -/
def ends : State := (onPoly 0x1F9).setE 15 0xFF

theorem polyOk_11B {s : State} (h : s.poly = 0x11B) : polyOk s := by
  rw [polyOk, h]; decide

/-- Its next transaction writes the command word `w`. -/
def issuing (s : State) (w : Word) : State := { s with pending := [.write 0 w] }

theorem witness_DecodeOfEncode :
    (Instr.gfpowi 15 0 255).wellFormed = true ∧ (Instr.config 4095 4095).wellFormed = true ∧
    (Instr.config 0 0).wellFormed = true := by decide

theorem witness_EncodeOfDecode : decode 0x20FFFFFF = .ok (.config 4095 4095) ∧ decode 0x10FFF000 = .ok (.gfadd 15 15 15) := by
  decide

theorem witness_DecoderAgreesWithMatchAndMask :
    (∃ e, decode 0x18300100 = .error e) ∧ (∀ row ∈ opcodeTable, rowMatches row 0x18300100 = false) ∧
    decode 0x183000FF = .ok (.gfpowi 3 0 255) := by
  refine ⟨⟨.nonzeroZeroField, ?_⟩, ?_, ?_⟩ <;> decide

theorem witness_StepRunsDecodedCommand :
    (issuing ends 0x14F00000).pending = .write 0 0x14F00000 :: [] ∧ (issuing ends 0x14F00000).err = none ∧
    decode 0x14F00000 = .ok (.gfinv 15 0) := by decide

theorem witness_IllegalWordRaises :
    (issuing ends 0xFFFFFFFF).pending = .write 0 0xFFFFFFFF :: [] ∧ (issuing ends 0xFFFFFFFF).err = none ∧
    decode 0xFFFFFFFF = .error .unassignedOpcode ∧ decode 0x25800000 = .error .nonzeroZeroField := by decide +kernel

theorem witness_FaultedEngineDiscards :
    (issuing faultedState 0).pending = .write 0 0 :: [] ∧ (issuing faultedState 0).err ≠ none := by decide

/-- GFINV of a zero register meets the hypotheses of both. -/
theorem witness_CommandErrorsAreListed_FaultsArePrecise :
    ends.err = none ∧ exec (.gfinv 15 14) ends = .next (ends.raise .domain 0x14FE0000) ∧
    (ends.raise .domain 0x14FE0000).err = some .domain := by
  refine ⟨rfl, congrArg Host.Outcome.next ?_, rfl⟩
  decide +kernel

theorem witness_WriteErrClearsFault :
    ({ faultedState with pending := [.write 1 0xFFFFFFFF] } : State).pending = .write 1 0xFFFFFFFF :: [] := rfl

/-- First clause, entry; the second clause's two ways out; the third clause, a command that would fault with the same code. -/
theorem witness_FaultEntryAndExit :
    (∃ t, step (issuing ends 0x14FE0000) = .next t ∧ (issuing ends 0x14FE0000).err = none ∧ t.err ≠ none) ∧
    (∃ t, step { faultedState with pending := [.write 1 0] } = .next t ∧ faultedState.err ≠ none ∧ t.err ≠ faultedState.err) ∧
    (∃ t, step { faultedState with pending := [.reset] } = .next t ∧ faultedState.err ≠ none ∧ t.err ≠ faultedState.err) ∧
    ∃ t, step (issuing faultedState 0x14010000) = .next t ∧ faultedState.err ≠ none ∧ t.err = faultedState.err := by
  refine ⟨⟨_, rfl, rfl, ?_⟩, ⟨_, rfl, ?_, ?_⟩, ⟨_, rfl, ?_, ?_⟩, ⟨_, rfl, ?_, ?_⟩⟩ <;> decide +kernel

/-- No event left, and a write to `CMD` of an illegal word, faulted or not. -/
theorem witness_EveryStepAnswers :
    (onPoly 0x11B).pending = [] ∧ (issuing ends 0xFFFFFFFF).pending = .write 0 0xFFFFFFFF :: [] ∧
    (issuing faultedState 0xFFFFFFFF).pending = .write 0 0xFFFFFFFF :: [] := ⟨rfl, rfl, rfl⟩

/-- Each of the six things a command can write is written by some command, so no clause is empty. -/
theorem witness_CommandsWriteOnlyTheirOwn :
    after (.gfone 14) ends (fun t => decide (t.getE 14 ≠ ends.getE 14)) = some true ∧
    after (.config 255 255) ends (fun t => decide (t.n ≠ ends.n ∧ t.k ≠ ends.k)) = some true ∧
    after .vand fiveBytes (fun t => decide (t.ma.length = 9)) = some true ∧
    after .minv diagonal (fun t => decide (t.mb ≠ diagonal.mb)) = some true ∧
    after .encode fiveBytes (fun t => decide (t.sid ≠ fiveBytes.sid ∧ t.sbody ≠ fiveBytes.sbody)) = some true ∧
    after .decode threeShares (fun t => decide (t.out ≠ threeShares.out ∧ t.olen ≠ threeShares.olen)) = some true := by
  decide +kernel

/-- The first and last cells of the map, and the neighbours of holes. -/
theorem witness_AddressMap :
    cellAt 0x0 = some .cmd ∧ cellAt 0xA = some .poly ∧ cellAt 0x10 = some (.e 0) ∧ cellAt 0x100 = some (.x 0) ∧
    cellAt 0x4FE = some (.sblen 254) ∧ cellAt 0x30000 = some (.ma 0 0) ∧ cellAt 0x3FEFE = some (.ma 254 254) ∧
    cellAt 0x1000000 = some (.sbody 0 0) ∧ cellAt 0x1FEFFFF = some (.sbody 254 65535) := by decide

/-- Both ends of every hole. -/
theorem witness_AddressHoles :
    ([0xB, 0xF, 0x20, 0xFF, 0x1FF, 0x2FF, 0x3FF, 0x4FF, 0x500, 0xFFFF, 0x300FF, 0x4FEFF, 0x3FF00, 0x3FFFF, 0x4FF00,
      0x4FFFF, 0x50000, 0xFFFFFF, 0x1FF0000, 0xFFFFFFFF] : List Word).all (fun off => decide (cellAt off = none)) = true := by
  decide +kernel

theorem offset_of_base (off : Word) : Config.base + off - Config.base = off := by
  rw [BitVec.add_comm, BitVec.add_sub_cancel]

/-- A read of a cell and a read of a hole, whatever `BASE` is. -/
theorem witness_HostReadAnswers :
    (∃ s : State, s.pending = HostEvent.readAt (Config.base + 0x1FEFFFF) :: []) ∧
    cellAt (Config.base + 0x1FEFFFF - Config.base) = some (.sbody 254 65535) ∧
    cellAt (Config.base + 0x1FF0000 - Config.base) = none := by
  refine ⟨⟨{ ends with pending := [_] }, rfl⟩, ?_, ?_⟩ <;> rw [offset_of_base] <;> decide

/-- One list holds a memory entry at an end of each array. -/
def written : State :=
  { onPoly 0x11B with
    n := 255, k := 255, err := some .domain, einfo := 0x14320000,
    x := [(254, 1)], data := [(65535, 2)], out := [(0, 3)], ma := [(256 * 254 + 254, 4)], mb := [(0, 5)],
    sid := [(254, 6)], slen := [(0, 0xFFFF)], sblen := [(254, 8)], sbody := [(65536 * 254 + 65535, 9)] }

theorem witness_CellsReadTheirContent :
    Memory.read written.x 254 = some 1 ∧ Memory.read written.data 65535 = some 2 ∧ Memory.read written.out 0 = some 3 ∧
    Memory.read written.ma (256 * 254 + 254) = some 4 ∧ Memory.read written.mb (256 * 0 + 0) = some 5 ∧
    Memory.read written.sid 254 = some 6 ∧ Memory.read written.slen 0 = some 0xFFFF ∧
    Memory.read written.sblen 254 = some 8 ∧ Memory.read written.sbody (65536 * 254 + 65535) = some 9 := by decide

/-- A hole, and a read-only cell. -/
theorem witness_WritesThatChangeNothing :
    (∃ s : State, s.pending = HostEvent.writeAt (Config.base + 0x4) 9 :: []) ∧
    cellAt (Config.base + 0xB - Config.base) = none ∧
    cellAt (Config.base + 0x4 - Config.base) = some .n ∧ Cell.n.readOnly = true := by
  refine ⟨⟨{ ends with pending := [_] }, rfl⟩, ?_, ?_, rfl⟩ <;> rw [offset_of_base] <;> decide

theorem witness_WriteThenReadKeepsLowBits :
    ∃ s : State, s.pending = .write 0x1FEFFFF 0x1FF :: [] ∧ cellAt 0x1FEFFFF = some (.sbody 254 65535) ∧
      Cell.sbody 254 65535 ≠ .cmd ∧ Cell.sbody 254 65535 ≠ .err ∧ (Cell.sbody 254 65535).readOnly = false :=
  ⟨{ ends with pending := [_] }, rfl, by decide, by decide, by decide, rfl⟩

/-- The last cell of a matrix row and the first of the next. -/
theorem witness_WriteLeavesOtherCells :
    ∃ s : State, s.pending = .write 0x300FE 7 :: [] ∧ cellAt 0x300FE = some (.ma 0 254) ∧ Cell.ma 0 254 ≠ .cmd ∧
      Cell.ma 0 254 ≠ .err ∧ (Cell.ma 1 0).inRange = true ∧ Cell.ma 1 0 ≠ .ma 0 254 :=
  ⟨{ ends with pending := [_] }, rfl, by decide, by decide, by decide, by decide, by decide⟩

theorem witness_ResetEventResets : ∃ s : State, s.pending = .reset :: [] := ⟨{ written with pending := [.reset] }, rfl⟩

/-- A faulted state with every memory written at an end of its array meets the invariant, and steps. -/
theorem witness_StepKeepsInvariant : written.Inv ∧ ∃ t, step written = .next t := by
  refine ⟨⟨⟨by decide, by decide⟩, polyOk_11B rfl, ⟨fun h => absurd h (by decide), fun e h => ?_⟩, ?_⟩, ⟨_, rfl⟩⟩
  · cases h; simp [wordMayRaise, show decode written.einfo = .ok (.gfinv 3 2) by decide, errorsOf]
  · simp [memoriesOk, memoryOk, written, Memory.wf, matIndexOk]

/-- Both ways `N` and `K` change. -/
theorem witness_ConfigurationChangesOnlyByConfig :
    (∃ t, step (issuing ends 0x20007005) = .next t ∧ t.n ≠ ends.n) ∧
    ∃ t, step { written with pending := [.reset] } = .next t ∧ t.k ≠ written.k := by
  refine ⟨⟨_, rfl, ?_⟩, ⟨_, rfl, ?_⟩⟩ <;> decide

theorem witness_MulIsPolynomialRemainder : (0x100 : Poly).getLsbD 8 = true ∧ (0x1FF : Poly).getLsbD 8 = true := by decide

/-- The first and the last legal polynomial, a nonzero element, and a zero product. -/
theorem witness_FieldLaws :
    0x11B ∈ Config.legalPolys ∧ 0x1F9 ∈ Config.legalPolys ∧ (0xFF : Byte) ≠ 0x00 ∧ gfMul 0x1F9 0x00 0xFF = 0x00 := by
  decide +kernel

theorem witness_InverseIsUnique : 0x1F9 ∈ Config.legalPolys ∧ (0x01 : Byte) ≠ 0x00 ∧ (0xFF : Byte) ≠ 0x00 := by decide

theorem witness_PowCornerCases : 0x1F9 ∈ Config.legalPolys ∧ (0xFF : Byte) ≠ 0x00 ∧ 1 ≤ 1 ∧ 1 ≤ 255 := by decide

theorem witness_DivisionLaws : 0x1F9 ∈ Config.legalPolys ∧ (0x01 : Byte) ≠ 0x00 ∧ (0xFF : Byte) ≠ 0x00 := by decide

theorem witness_LegalPolysAreIrreducible :
    0x11B ∈ Config.legalPolys ∧ 0x1F9 ∈ Config.legalPolys ∧ 2 ≤ (0x02 : Byte).toNat ∧ 2 ≤ (0xFF : Byte).toNat := by decide

/-- A nonzero divisor or source, and a zero one. -/
theorem witness_GfdivResult_GfinvResult : polyOk ends ∧ ends.getE 15 ≠ 0x00 ∧ ends.getE 14 = 0x00 := by
  refine ⟨?_, ?_, ?_⟩
  · show (0x1F9 : Poly) ∈ Config.legalPolys
    decide
  all_goals decide

theorem witness_GfpowGfpowiResult : 0 ≤ 255 ∧ 255 ≤ 255 := by decide

/-- Valid pairs at both ends; a pair refused by each of the three tests; immediates at the top of their fields. -/
theorem witness_ConfigResult :
    (1 ≤ 1 ∧ 1 ≤ 1 ∧ 1 ≤ 255) ∧ (1 ≤ 255 ∧ 255 ≤ 255 ∧ 255 ≤ 255) ∧ ¬ (1 ≤ 0 ∧ 0 ≤ 5 ∧ 5 ≤ 255) ∧
    ¬ (1 ≤ 4 ∧ 4 ≤ 3 ∧ 3 ≤ 255) ∧ ¬ (1 ≤ 1 ∧ 1 ≤ 256 ∧ 256 ≤ 255) ∧ 4095 ≤ 4095 := by decide

theorem witness_HornerClosedForm : 0x1F9 ∈ Config.legalPolys := by decide

/-- The last byte below `LENGTH` and the first at it (chunk 1 of `01 02 03 04 05`), and a chunk wholly beyond. -/
theorem witness_PevalResult :
    polyOk fiveBytes ∧ 1 * fiveBytes.k.toNat + 1 < fiveBytes.length.toNat ∧
    Memory.read fiveBytes.data (1 * fiveBytes.k.toNat + 1) = some 5 ∧ fiveBytes.length.toNat ≤ 1 * fiveBytes.k.toNat + 2 ∧
    ({ fiveBytes with chunk := 2 } : State).length.toNat ≤
      ({ fiveBytes with chunk := 2 } : State).chunk.toNat * ({ fiveBytes with chunk := 2 } : State).k.toNat := by
  refine ⟨polyOk_11B rfl, ?_, ?_, ?_, ?_⟩ <;> decide

/-- The last slot written and the first that is not; the last chunk. -/
theorem witness_EncodeResult :
    configOk fiveBytes ∧ polyOk fiveBytes ∧ 4 < fiveBytes.n.toNat ∧ fiveBytes.n.toNat ≤ 5 ∧
    1 < (fiveBytes.length.toNat + fiveBytes.k.toNat - 1) / fiveBytes.k.toNat := by
  refine ⟨⟨?_, ?_⟩, polyOk_11B rfl, ?_, ?_, ?_⟩ <;> decide

/-- `config 3, 1` with `DATA = AB CD`, and length 0. -/
theorem witness_EncodeEdgeCases :
    ∃ s : State, (∃ t, exec .encode s = .next t) ∧ s.k = 1 ∧ dataWritten s ∧ 2 < s.n.toNat ∧ 1 < s.length.toNat ∧
      configOk { s with length := 0 } := by
  refine ⟨{ onPoly 0x11B with n := 3, length := 2, data := [(0, 0xAB), (1, 0xCD)] }, ⟨_, rfl⟩, rfl, ?_, ?_, ?_, ?_, ?_⟩
  · intro i hi
    have h : i < 2 := hi
    interval_cases i <;> rfl
  all_goals decide

/-- A byte left beyond `LENGTH`. -/
theorem witness_DataBeyondLengthHasNoEffect :
    ({ ({ fiveBytes with data := Memory.write fiveBytes.data 5 0xEE } : State) with data := fiveBytes.data } : State) =
      fiveBytes ∧
    (∀ a, a < fiveBytes.length.toNat →
      Memory.read (Memory.write fiveBytes.data 5 0xEE) a = Memory.read fiveBytes.data a) ∧
    (∃ t, exec .encode fiveBytes = .next t) ∧
    ∃ t, exec .encode { fiveBytes with data := Memory.write fiveBytes.data 5 0xEE } = .next t := by
  refine ⟨rfl, ?_, ⟨_, rfl⟩, ⟨_, rfl⟩⟩
  decide +kernel

theorem witness_VandResult : 2 < fiveBytes.k.toNat ∧ Memory.read ({ fiveBytes with x := [(2, 7)] } : State).x 2 = some 7 := by
  decide

/-- A corner the inverter inverts and one it refuses. -/
theorem witness_MinvResult :
    (∃ m, ginv diagonal.poly diagonal.k.toNat (maCorner diagonal) = some m) ∧
    ginv permutation.poly permutation.k.toNat (maCorner permutation) = none ∧ 1 < diagonal.k.toNat := by
  refine ⟨⟨[[0x8D, 0x00], [0x00, 0xF6]], ?_⟩, ?_, ?_⟩ <;> decide +kernel

/-- The entries of `02 00 / 00 03`, and of its inverse for `POLY = 0x11B`. -/
def diagonalEntry (r c : Nat) : Byte := if r = c then (if r = 0 then 0x02 else 0x03) else 0x00
def diagonalInverse (r c : Nat) : Byte := if r = c then (if r = 0 then 0x8D else 0xF6) else 0x00

theorem diagonal_corner_invertible {n : Nat} (hn : n ≤ 2) : ProductIsOne 0x11B n diagonalEntry diagonalInverse := by
  intro r c hr hc
  have hr2 : r < 2 := by omega
  have hc2 : c < 2 := by omega
  interval_cases n <;> interval_cases r <;> interval_cases c <;> first | omega | decide +kernel

theorem witness_MinvCompletesWithTheInverse :
    polyOk diagonal ∧
    (∀ r c, r < diagonal.k.toNat → c < diagonal.k.toNat →
      Memory.read diagonal.ma (256 * r + c) = some (diagonalEntry r c)) ∧
    ∀ n, 1 ≤ n → n ≤ diagonal.k.toNat → ∃ b, ProductIsOne diagonal.poly n diagonalEntry b := by
  refine ⟨polyOk_11B rfl, ?_, fun n _ hn => ⟨diagonalInverse, diagonal_corner_invertible hn⟩⟩
  intro r c hr hc
  have hr2 : r < 2 := hr
  have hc2 : c < 2 := hc
  interval_cases r <;> interval_cases c <;> decide

theorem witness_GinvIsTwoSidedInverse :
    0x11B ∈ Config.legalPolys ∧ (∃ m, ginv 0x11B 2 (matOf 2 diagonalEntry) = some m) ∧
    ProductIsOne 0x11B 2 diagonalEntry diagonalInverse ∧ 1 < 2 := by
  refine ⟨by decide, ⟨[[0x8D, 0x00], [0x00, 0xF6]], by decide +kernel⟩, diagonal_corner_invertible (le_refl 2), by decide⟩

theorem witness_GinvSucceedsIffLeadingCornersInvertible :
    0x11B ∈ Config.legalPolys ∧ (∃ m, ginv 0x11B 2 (matOf 2 diagonalEntry) = some m) ∧
    ∀ n, 1 ≤ n → n ≤ 2 → ∃ b, ProductIsOne 0x11B n diagonalEntry b :=
  ⟨by decide, ⟨[[0x8D, 0x00], [0x00, 0xF6]], by decide +kernel⟩, fun _ _ hn => ⟨_, diagonal_corner_invertible hn⟩⟩

/-- Distinct nodes with a zero among them, and equal nodes. -/
theorem witness_GinvOfVandermondeIffDistinct :
    0x11B ∈ Config.legalPolys ∧ (∃ m, ginv 0x11B 2 (vand 0x11B 2 fun i => BitVec.ofNat 8 i) = some m) ∧
    ginv 0x11B 2 (vand 0x11B 2 fun _ => 0x02) = none := by
  refine ⟨by decide, ⟨[[0x01, 0x00], [0x01, 0x01]], ?_⟩, ?_⟩ <;> decide +kernel

theorem witness_MinvRefusesPermutation :
    permutation.k = 2 ∧ Memory.read permutation.ma 0 = some 0x00 ∧ Memory.read permutation.ma 1 = some 0x01 ∧
    Memory.read permutation.ma 256 = some 0x01 ∧ Memory.read permutation.ma 257 = some 0x00 := by decide

theorem witness_DecodeInsufficientShares :
    ({ threeShares with scnt := 2 } : State).scnt.toNat < ({ threeShares with scnt := 2 } : State).k.toNat := by decide

/-- The ids of `threeShares`. -/
def threeIds (i : Nat) : Byte := if i = 0 then 2 else if i = 1 then 4 else 5

/-- `threeShares` with other ids. -/
def withIds (a b c : Byte) : State := { threeShares with sid := [(0, a), (1, b), (2, c)] }

def idsOf (a b c : Byte) (i : Nat) : Byte := if i = 0 then a else if i = 1 then b else c

theorem withIds_supplied (a b c : Byte) : Supplied (withIds a b c) (idsOf a b c) (fun _ => 5) (fun _ => 2) := by
  refine ⟨by simp [withIds, threeShares], by simp [withIds, threeShares], fun i hi => ?_⟩
  have h : i < 3 := hi
  interval_cases i <;> exact ⟨rfl, rfl, rfl⟩

theorem withIds_consistent {a b c : Byte} (ha : a.toNat ≤ 5) (hb : b.toNat ≤ 5) (hc : c.toNat ≤ 5) :
    Consistent (withIds a b c) (idsOf a b c) (fun _ => 5) (fun _ => 2) := by
  refine ⟨fun i hi => ?_, by simp [withIds, threeShares]⟩
  have h : i < 3 := hi
  interval_cases i
  · exact ⟨rfl, rfl, ha⟩
  · exact ⟨rfl, rfl, hb⟩
  · exact ⟨rfl, rfl, hc⟩

/-- An id one above `N`. -/
theorem witness_DecodeInconsistentShares :
    Supplied (withIds 2 4 6) (idsOf 2 4 6) (fun _ => 5) (fun _ => 2) ∧
    ¬ Consistent (withIds 2 4 6) (idsOf 2 4 6) (fun _ => 5) (fun _ => 2) := by
  refine ⟨withIds_supplied 2 4 6, fun h => ?_⟩
  have := (h.1 2 (by decide)).2.2
  exact absurd this (by decide)

/-- Consistent shares: distinct nonzero ids, a zero id, a repeated id. -/
theorem witness_DecodeSingularIffZeroOrDuplicate :
    polyOk (withIds 2 2 5) ∧ (withIds 2 2 5).err = none ∧
    Supplied (withIds 2 2 5) (idsOf 2 2 5) (fun _ => 5) (fun _ => 2) ∧
    Consistent (withIds 2 2 5) (idsOf 2 2 5) (fun _ => 5) (fun _ => 2) ∧ idsOf 2 2 5 0 = idsOf 2 2 5 1 ∧
    Consistent (withIds 2 4 0) (idsOf 2 4 0) (fun _ => 5) (fun _ => 2) ∧ idsOf 2 4 0 2 = 0x00 ∧
    Consistent (withIds 2 4 5) (idsOf 2 4 5) (fun _ => 5) (fun _ => 2) :=
  ⟨polyOk_11B rfl, rfl, withIds_supplied _ _ _, withIds_consistent (by decide) (by decide) (by decide), rfl,
    withIds_consistent (by decide) (by decide) (by decide), rfl, withIds_consistent (by decide) (by decide) (by decide)⟩

/-- Both outcomes: too few shares (K = 1, SCNT = 0), and three shares over an older byte in `OUT[0]` and one in `OUT[5]`. -/
theorem witness_DecodeAllOrNothing :
    1 ≤ (onPoly 0x11B).k.toNat ∧
    after .decode (onPoly 0x11B) (fun t => (errCode t.err, t.einfo, t.olen)) = some (2, 0x25000000, 0) ∧
    1 ≤ threeShares.k.toNat ∧ Memory.read threeShares.slen 0 = some 5 ∧
    after .decode { threeShares with out := [(0, 0xEE), (5, 0xEE)] } (fun t => (t.olen, t.err, t.out)) =
      some (5, none, [(0, 1), (1, 2), (2, 3), (3, 4), (4, 5), (5, 0xEE)]) := by decide +kernel

/-- The bodies of `threeShares`. -/
def threeBodies (x i : Nat) : Byte := (Memory.read threeShares.sbody (65536 * x + i)).getD 0

theorem witness_DecodeReconstructs :
    Supplied (withIds 2 4 5) (idsOf 2 4 5) (fun _ => 5) (fun _ => 2) ∧
    Consistent (withIds 2 4 5) (idsOf 2 4 5) (fun _ => 5) (fun _ => 2) ∧
    (∀ i, i < (withIds 2 4 5).k.toNat → idsOf 2 4 5 i ≠ 0x00) ∧
    (∀ x i, x < (withIds 2 4 5).k.toNat → i < (2 : Half).toNat →
      Memory.read (withIds 2 4 5).sbody (65536 * x + i) = some (threeBodies x i)) ∧
    (∃ d, ginv (withIds 2 4 5).poly (withIds 2 4 5).k.toNat (vand (withIds 2 4 5).poly (withIds 2 4 5).k.toNat (idsOf 2 4 5)) =
      some d) ∧
    1 * (withIds 2 4 5).k.toNat + 1 < (5 : Half).toNat := by
  refine ⟨withIds_supplied _ _ _, withIds_consistent (by decide) (by decide) (by decide), ?_, ?_, ?_, by decide⟩
  · intro i hi
    have h : i < 3 := hi
    interval_cases i <;> decide
  · intro x i hx hi
    have h : x < 3 := hx
    have h' : i < 2 := hi
    interval_cases x <;> interval_cases i <;> decide
  · have h : (ginv 0x11B 3 (vand 0x11B 3 (idsOf 2 4 5))).isSome = true := by decide +kernel
    exact Option.isSome_iff_exists.1 h

/-- 95 section 2.5, `K = 1`: slot 0 is (id 3, 2, 2, `AB CD`). -/
def oneShare : State :=
  { onPoly 0x11B with n := 3, scnt := 1, sid := [(0, 3)], slen := [(0, 2)], sblen := [(0, 2)], sbody := [(0, 0xAB), (1, 0xCD)] }

theorem witness_DecodeThresholdOne :
    oneShare.k = 1 ∧ Supplied oneShare (fun _ => 3) (fun _ => 2) (fun _ => 2) ∧
    Consistent oneShare (fun _ => 3) (fun _ => 2) (fun _ => 2) ∧ (3 : Byte) ≠ 0x00 ∧
    ∀ i, i < (2 : Half).toNat → Memory.read oneShare.sbody i = some (if i = 0 then 0xAB else 0xCD) := by
  refine ⟨rfl, ⟨by decide, by decide, fun i hi => ?_⟩, ⟨fun _ _ => ⟨rfl, rfl, ?_⟩, rfl⟩, by decide, by decide⟩
  case refine_2 => show (3 : Byte).toNat ≤ oneShare.n.toNat; decide
  have h : i < 1 := hi
  interval_cases i
  exact ⟨rfl, rfl, rfl⟩

/-- Three bytes `01 02 03` dispersed with `config 3, 2`, for every `POLY`: bodies `03 03`, `05 03`, `07 03`. -/
def source : State := { onPoly 0x11B with n := 3, k := 2, length := 3, data := [(0, 1), (1, 2), (2, 3)] }
def dispersal : State :=
  { source with
    sid := [(0, 1), (1, 2), (2, 3)], slen := [(0, 3), (1, 3), (2, 3)], sblen := [(0, 2), (1, 2), (2, 2)],
    sbody := [(0, 3), (1, 3), (65536, 5), (65537, 3), (131072, 7), (131073, 3)] }

/-- Two copies, of slots 2 and 0. -/
def twoCopies : State :=
  { dispersal with scnt := 2, sid := [(0, 3), (1, 1)], sbody := [(0, 7), (1, 3), (65536, 3), (65537, 3)] }
def twoSources (i : Nat) : Nat := if i = 0 then 2 else 0

/-- Three copies, of slots 1, 2 and 1: the third is not selected. -/
def threeCopies : State :=
  { dispersal with
    scnt := 3, sid := [(0, 2), (1, 3), (2, 2)],
    sbody := [(0, 5), (1, 3), (65536, 7), (65537, 3), (131072, 5), (131073, 3)] }
def threeSources (i : Nat) : Nat := if i = 1 then 2 else 1

theorem source_disperses : exec .encode source = .next dispersal := congrArg Host.Outcome.next (by decide +kernel)

theorem source_ok : configOk source ∧ polyOk source ∧ dataWritten source := by
  refine ⟨⟨by decide, by decide⟩, polyOk_11B rfl, fun i hi => ?_⟩
  have h : i < 3 := hi
  interval_cases i <;> rfl

theorem two_copies : SuppliesCopies dispersal twoCopies twoSources := by
  refine ⟨rfl, rfl, rfl, by decide, fun i hi => ?_, fun i j hi hj h => ?_⟩
  · have h : i < 2 := hi
    interval_cases i <;> refine ⟨by decide, rfl, rfl, rfl, fun c hc => ?_⟩ <;>
      (have hc : c < 2 := hc; interval_cases c <;> decide)
  · have h1 : i < 2 := hi
    have h2 : j < 2 := hj
    interval_cases i <;> interval_cases j <;> simp [twoSources] at h ⊢

theorem three_copies : SuppliesCopies dispersal threeCopies threeSources := by
  refine ⟨rfl, rfl, rfl, by decide, fun i hi => ?_, fun i j hi hj h => ?_⟩
  · have h : i < 3 := hi
    interval_cases i <;> refine ⟨by decide, rfl, rfl, rfl, fun c hc => ?_⟩ <;>
      (have hc : c < 2 := hc; interval_cases c <;> decide)
  · have h1 : i < 2 := hi
    have h2 : j < 2 := hj
    interval_cases i <;> interval_cases j <;> simp [threeSources] at h ⊢

theorem witness_RoundTrip :
    (configOk source ∧ polyOk source ∧ dataWritten source) ∧ exec .encode source = .next dispersal ∧
    SuppliesCopies dispersal twoCopies twoSources := ⟨source_ok, source_disperses, two_copies⟩

theorem witness_SubsetIndependence :
    (configOk source ∧ polyOk source ∧ dataWritten source) ∧ exec .encode source = .next dispersal ∧
    SuppliesCopies dispersal twoCopies twoSources ∧ SuppliesCopies dispersal threeCopies threeSources ∧
    (∃ t, exec .decode twoCopies = .next t) ∧ ∃ t, exec .decode threeCopies = .next t :=
  ⟨source_ok, source_disperses, two_copies, three_copies, ⟨_, rfl⟩, ⟨_, rfl⟩⟩

end Sys2Proof.Tests
end

section
/-! PROOFS. The decoder, read backwards: a word it accepts is the word of the command it reads (R91 to R98). -/

namespace Sys2Proof

theorem requireZero_eq_ok {w : Word} {hi lo : Nat} {i j : Instr} :
    requireZero w hi lo i = .ok j ↔ slice w hi lo = 0 ∧ i = j := by
  unfold requireZero
  split_ifs with h <;> simp [h]

theorem slice_eq (w : Word) (hi lo : Nat) : slice w hi lo = w.toNat / 2 ^ lo % 2 ^ (hi + 1 - lo) := rfl

section Formats

variable {w : Word} {op : Nat} (hop : slice w 31 24 = op)
include hop

/-- A word is the opcode followed by its 24 operand bits (R90). -/
theorem commandWord_of_slices {rest : Nat} (hrest : slice w 23 0 = rest) : commandWord op rest = w := by
  have hw := w.isLt
  refine BitVec.eq_of_toNat_eq ?_
  simp only [slice_eq] at hop hrest
  simp only [commandWord, BitVec.toNat_ofNat]
  omega

theorem formatR_of_slices (hz : slice w 11 0 = 0) :
    formatR op (regField w 23) (regField w 19) (regField w 15) = w := by
  refine commandWord_of_slices hop ?_
  simp only [regField_val, slice_eq] at hz ⊢
  omega

theorem formatU_of_slices (hz : slice w 15 0 = 0) : formatU op (regField w 23) (regField w 19) = w := by
  refine commandWord_of_slices hop ?_
  simp only [regField_val, slice_eq] at hz ⊢
  omega

theorem formatI_of_slices (hz : slice w 15 8 = 0) :
    formatI op (regField w 23) (regField w 19) (slice w 7 0) = w := by
  refine commandWord_of_slices hop ?_
  simp only [regField_val, slice_eq] at hz ⊢
  omega

theorem formatD_of_slices (hz : slice w 19 0 = 0) : formatD op (regField w 23) = w := by
  refine commandWord_of_slices hop ?_
  simp only [regField_val, slice_eq] at hz ⊢
  omega

theorem formatC_of_slices : formatC op (slice w 23 12) (slice w 11 0) = w := by
  refine commandWord_of_slices hop ?_
  simp only [slice_eq]
  omega

theorem formatZ_of_slices (hz : slice w 23 0 = 0) : formatZ op = w := commandWord_of_slices hop hz

end Formats

/-- The decoder drops no bit: what it reads from a word encodes to that word again (R97, R98). -/
theorem encode_of_decode {w : Word} {i : Instr} (h : decode w = .ok i) : encode i = w := by
  unfold decode at h
  split at h
  case h_1 hop | h_2 hop | h_3 hop | h_4 hop | h_6 hop =>
    obtain ⟨hz, rfl⟩ := requireZero_eq_ok.1 h
    exact formatR_of_slices hop hz
  case h_5 hop | h_11 hop =>
    obtain ⟨hz, rfl⟩ := requireZero_eq_ok.1 h
    exact formatU_of_slices hop hz
  case h_7 hop | h_8 hop =>
    obtain ⟨hz, rfl⟩ := requireZero_eq_ok.1 h
    exact formatD_of_slices hop hz
  case h_9 hop =>
    obtain ⟨hz, rfl⟩ := requireZero_eq_ok.1 h
    exact formatI_of_slices hop hz
  case h_10 hop =>
    cases h
    exact formatC_of_slices hop
  case h_12 hop | h_13 hop | h_14 hop | h_15 hop =>
    obtain ⟨hz, rfl⟩ := requireZero_eq_ok.1 h
    exact formatZ_of_slices hop hz
  case h_16 => cases h

end Sys2Proof
end

section
/-! PROOFS. The address map, issuing a word and the outcome of a command, for the statements of 10_state.md. -/

namespace Sys2Proof.Machine

/-! ### The address map (20_memory.md R66) -/

/-- Control cells have no index, and `CMD` stands first (R40). -/
theorem controlCellAt_cases {o : Nat} {c : Cell} (h : controlCellAt o = some c) :
    c.inRange = true ∧ (c = .cmd → o = 0) := by
  unfold controlCellAt at h
  split at h <;> cases h
  · exact ⟨rfl, fun _ => rfl⟩
  all_goals exact ⟨rfl, nofun⟩

theorem data_inRange {i : Nat} (h : i < 65536) : (Cell.data i).inRange = true := decide_eq_true h

theorem out_inRange {i : Nat} (h : i < 65536) : (Cell.out i).inRange = true := decide_eq_true h

theorem ifInRange_cases {c d : Cell} (h : ifInRange c = some d) (hc : c ≠ .cmd) : d ≠ .cmd ∧ d.inRange = true := by
  unfold ifInRange at h
  split_ifs at h with hr
  exact Option.some.inj h ▸ ⟨hc, hr⟩

/-- What an offset names is a control cell or another cell than `CMD`, with its index in the range of its row.
The cases stand in the order of the map (R66), holes included. -/
theorem cellAt_cases {off : Word} {c : Cell} (h : cellAt off = some c) :
    controlCellAt off.toNat = some c ∨ c ≠ .cmd ∧ c.inRange = true := by
  simp only [cellAt, ite_eq_iff] at h
  repeat' obtain ⟨hlt, h⟩ | ⟨hge, h⟩ := (h : _ ∧ _ ∨ _ ∧ _)
  · exact .inl h
  · cases h; exact .inr ⟨nofun, rfl⟩
  · cases h
  · exact .inr (ifInRange_cases h nofun)
  · exact .inr (ifInRange_cases h nofun)
  · exact .inr (ifInRange_cases h nofun)
  · exact .inr (ifInRange_cases h nofun)
  · cases h
  · cases h; exact .inr ⟨nofun, data_inRange (by omega)⟩
  · cases h; exact .inr ⟨nofun, out_inRange (by omega)⟩
  · exact .inr (ifInRange_cases h nofun)
  · exact .inr (ifInRange_cases h nofun)
  · cases h
  · exact .inr (ifInRange_cases h nofun)

/-- An offset names only cells that exist. -/
theorem cellAt_inRange {off : Word} {c : Cell} (h : cellAt off = some c) : c.inRange = true := by
  rcases cellAt_cases h with h | ⟨-, h⟩
  · exact (controlCellAt_cases h).1
  · exact h

/-- Only offset 0 names `CMD`. -/
theorem cellAt_eq_cmd {off : Word} (h : cellAt off = some .cmd) : off = 0 := by
  rcases cellAt_cases h with h | ⟨h, -⟩
  · exact BitVec.eq_of_toNat_eq ((controlCellAt_cases h).2 rfl)
  · exact absurd rfl h

/-! ### Steps and issue (60_exceptions.md R242) -/

theorem step_of_pending {s : State} {ev : HostEvent} {rest : List HostEvent} (h : s.pending = ev :: rest) :
    step s = perform ev (s.takeEvent rest) := by
  simp only [step, h]

theorem issue_of_decode {s : State} {w : Word} {i : Instr} (hs : s.err = none) (hw : decode w = .ok i) :
    issue w s = exec i s := by
  simp [issue, State.faulted, hs, hw]

/-- A write to `CMD` is the issue of its data, with `OK` answered. -/
theorem perform_write_zero (s : State) (w : Word) (rest : List HostEvent) :
    perform (.write 0 w) (s.takeEvent rest) = issue w (answered s rest .ok) := rfl

/-! ### What a read and a plain write leave alone -/

/-- A read changes nothing but the list of answers (R61). -/
theorem busRead_eq_answer (off : Word) (s : State) : ∃ a, busRead off s = s.answer a := by
  unfold busRead
  split
  · exact ⟨_, rfl⟩
  · exact ⟨_, rfl⟩

/-- `N`, `K` and `POLY` are read-only cells (R45, R46, R51). -/
theorem writeCell_config (s : State) (d : Word) (c : Cell) :
    (writeCell s d c).n = s.n ∧ (writeCell s d c).k = s.k ∧ (writeCell s d c).poly = s.poly := by
  cases c <;> exact ⟨rfl, rfl, rfl⟩

/-! ### The outcome of a command (10_state.md R37) -/

theorem configInvalid_eq_false {n k : Nat} : configInvalid n k = false ↔ 1 ≤ k ∧ k ≤ n ∧ n ≤ 255 := by
  simp only [configInvalid, Bool.or_eq_false_iff, decide_eq_false_iff_not]
  omega

/-- A command leaves `N` and `K` alone, unless it is a CONFIG with a valid pair; they are then that pair (R221). -/
theorem exec_config_cases {i : Instr} {s t : State} (h : exec i s = .next t) :
    (t.n = s.n ∧ t.k = s.k) ∨
    ∃ n k, i = .config n k ∧ 1 ≤ k ∧ k ≤ n ∧ n ≤ 255 ∧ t.n.toNat = n ∧ t.k.toNat = k := by
  rcases exec_cases h with ⟨e, -, rfl⟩ | ⟨rd, v, -, rfl⟩ | ⟨n, k, rfl, hv, rfl⟩ | ⟨-, rfl⟩ | ⟨r, -, -, rfl⟩ | ⟨-, rfl⟩ |
    ⟨d, -, -, rfl⟩
  case inr.inr.inl =>
    obtain ⟨hk, hkn, hn⟩ := configInvalid_eq_false.1 hv
    refine .inr ⟨n, k, rfl, hk, hkn, hn, ?_, ?_⟩ <;> simp <;> omega
  all_goals exact .inl ⟨rfl, rfl⟩

/-- Settles O15, over everything a command can do (`exec_cases`): each effect writes its own fields. -/
theorem commandsWriteOnlyTheirOwn : Obligations.CommandsWriteOnlyTheirOwn := by
  intro i s t h
  rcases exec_cases h with ⟨e, -, rfl⟩ | ⟨rd, v, hd, rfl⟩ | ⟨n, k, rfl, -, rfl⟩ | ⟨rfl, rfl⟩ | ⟨r, rfl, -, rfl⟩ | ⟨rfl, rfl⟩ |
    ⟨d, rfl, -, rfl⟩
  case inr.inl =>
    have hdest : ∀ r, (s.setE rd v).getE r ≠ s.getE r → destination i = some r := fun r hr => by
      by_cases e : r = rd
      · rw [e, hd]
      · simp [State.getE_setE, e] at hr
    simpa using hdest
  all_goals simp [State.getE]

/-- Settles O5: the write to `CMD` issues its data, and the engine is not faulted. -/
theorem stepRunsDecodedCommand : Obligations.StepRunsDecodedCommand := by
  intro s w rest i hp hs hw
  calc step s = issue w (answered s rest .ok) := by rw [step_of_pending hp, perform_write_zero]
    _ = exec i (answered s rest .ok) := issue_of_decode hs hw

/-- A step leaves `N`, `K` and `POLY` alone, unless it is reset or runs the command the host writes to `CMD` (R242). -/
theorem step_config_cases {s t : State} (h : step s = .next t) :
    (t.n = s.n ∧ t.k = s.k ∧ t.poly = s.poly) ∨
    (∃ rest, s.pending = .reset :: rest ∧ t = (s.takeEvent rest).afterReset) ∨
    ∃ w rest i, s.pending = .write 0 w :: rest ∧ s.err = none ∧ decode w = .ok i ∧
      exec i (answered s rest .ok) = .next t := by
  rcases step_cases h with ⟨-, rfl⟩ | ⟨off, rest, -, rfl⟩ | ⟨off, d, rest, hp, hw⟩ | hreset
  · exact .inl ⟨rfl, rfl, rfl⟩
  · obtain ⟨a, ha⟩ := busRead_eq_answer off (s.takeEvent rest)
    rw [ha]
    exact .inl ⟨rfl, rfl, rfl⟩
  · rcases busWrite_cases hw with ⟨-, rfl⟩ | ⟨hc, hi⟩ | ⟨c, -, -, rfl⟩
    · exact .inl ⟨rfl, rfl, rfl⟩
    · rcases issue_cases hi with ⟨-, rfl⟩ | ⟨-, -, rfl⟩ | ⟨hs, i, hd, he⟩
      · exact .inl ⟨rfl, rfl, rfl⟩
      · exact .inl ⟨rfl, rfl, rfl⟩
      · exact .inr (.inr ⟨d, rest, i, cellAt_eq_cmd hc ▸ hp, hs, hd, he⟩)
    · exact .inl (writeCell_config (s.takeEvent rest) d c)
  · exact .inr (.inl hreset)

/-- Settles O27: reset keeps `POLY`, and of the commands only a CONFIG with a valid pair writes `N` or `K`. -/
theorem configurationChangesOnlyByConfig : Obligations.ConfigurationChangesOnlyByConfig := by
  intro s t h
  rcases step_config_cases h with ⟨hn, hk, hpoly⟩ | ⟨rest, hp, rfl⟩ | ⟨w, rest, i, hp, hs, hw, he⟩
  · exact ⟨hpoly, fun hne => by simp [hn, hk] at hne⟩
  · exact ⟨rfl, fun _ => .inl ⟨rest, hp⟩⟩
  · obtain ⟨-, -, -, -, hpoly, -⟩ := commandsWriteOnlyTheirOwn i _ t he
    refine ⟨hpoly, fun hne => ?_⟩
    rcases exec_config_cases he with ⟨hn, hk⟩ | ⟨n, k, rfl, hpair⟩
    · simp [hn, hk, answered] at hne
    · exact .inr ⟨w, rest, n, k, hp, hs, hw, hpair⟩

end Sys2Proof.Machine
end

section
/-! PROOFS. What the cells of 10_state.md read, the error code and `irq`. -/

namespace Sys2Proof.Machine

/-! ### The error code (R42, R231) -/

/-- `ERR` reads 0 exactly where there is no error, and never 7. -/
theorem readCell_err_code (s : State) : (readCell s .err = 0 ↔ s.err = none) ∧ readCell s .err ≠ 7 := by
  have hread : readCell s .err = (errCode s.err).setWidth 32 := rfl
  rw [hread]
  cases s.err with
  | none => simp [errCode]
  | some e => cases e <;> simp [errCode, CmdError.code]

theorem faulted_iff {s : State} : s.faulted = true ↔ readCell s .err ≠ 0 := by
  rw [Ne, (readCell_err_code s).1, State.faulted, Option.isSome_iff_ne_none]

/-- Bit 0 is all there is of a one-bit cell (R44). -/
theorem getLsbD_zero_iff (c : BitVec 1) : c.getLsbD 0 = true ↔ c = 1 := by
  rcases BitVec.eq_zero_or_eq_one c with rfl | rfl <;> simp

theorem irq_iff {s : State} : s.irq = true ↔ s.ctrl = 1 ∧ readCell s .err ≠ 0 := by
  rw [State.irq, Bool.and_eq_true, getLsbD_zero_iff, faulted_iff]

/-- Settles O11: the six codes by evaluation, the rest by the laws of the error code. -/
theorem errorCodesAndIrq : Obligations.ErrorCodesAndIrq := fun s =>
  ⟨rfl, rfl, rfl, rfl, rfl, rfl, rfl, (readCell_err_code s).2, faulted_iff, irq_iff⟩

/-! ### The content of a cell (R61, R63) -/

/-- A written cell of a byte memory reads as what was written. -/
theorem toNat_byteAt_of_read {s : State} {m : Memory 8} {a no : Nat} {v : Byte} (h : Memory.read m a = some v) :
    ((s.byteAt m a no).setWidth 32).toNat = v.toNat := by
  rw [byteAt_of_read h, BitVec.toNat_setWidth_of_le (by omega)]

/-- The same for the memories of 16 bits a cell. -/
theorem toNat_halfAt_of_read {s : State} {m : Memory 16} {a no : Nat} {v : Half} (h : Memory.read m a = some v) :
    ((s.halfAt m a no).setWidth 32).toNat = v.toNat := by
  rw [halfAt_of_read h, BitVec.toNat_setWidth_of_le (by omega)]

/-- Settles O19: a register or control cell is zero-extended, a memory cell is the value last written, zero-extended. -/
theorem cellsReadTheirContent : Obligations.CellsReadTheirContent := by
  intro s
  have zeroExtended : ∀ {w : Nat} (v : BitVec w), w ≤ 32 → (v.setWidth 32).toNat = v.toNat := fun _ =>
    BitVec.toNat_setWidth_of_le
  exact ⟨rfl, zeroExtended _ (by omega), rfl, zeroExtended _ (by omega), zeroExtended _ (by omega),
    zeroExtended _ (by omega), zeroExtended _ (by omega), zeroExtended _ (by omega), zeroExtended _ (by omega),
    zeroExtended _ (by omega), zeroExtended _ (by omega), fun _ => zeroExtended _ (by omega),
    fun _ _ => toNat_byteAt_of_read, fun _ _ => toNat_byteAt_of_read, fun _ _ => toNat_byteAt_of_read,
    fun _ _ _ => toNat_byteAt_of_read, fun _ _ _ => toNat_byteAt_of_read, fun _ _ => toNat_byteAt_of_read,
    fun _ _ => toNat_halfAt_of_read, fun _ _ => toNat_halfAt_of_read, fun _ _ _ => toNat_byteAt_of_read⟩

end Sys2Proof.Machine
end

section
/-! PROOFS. The invariant of 10_state.md R57: every update of the state keeps it, so every step does. -/

namespace Sys2Proof.Machine

/-! ### Memories -/

section Memories

variable {w : Nat} {m : Memory w} {inArray : Nat → Bool}

theorem memoryOk_nil : memoryOk ([] : Memory w) inArray := ⟨Memory.wf_nil, nofun⟩

theorem memoryOk.write (h : memoryOk m inArray) {a : Nat} (v : BitVec w) (ha : inArray a = true) :
    memoryOk (Memory.write m a v) inArray := by
  refine ⟨Memory.write_wf a v h.1, fun c hc => ?_⟩
  rcases Memory.mem_write hc with rfl | hc
  · exact ha
  · exact h.2 c hc

theorem memoryOk.writeAll (h : memoryOk m inArray) {stores : List (Nat × BitVec w)}
    (hstores : ∀ c ∈ stores, inArray c.1 = true) : memoryOk (Memory.writeAll m stores) inArray := by
  refine ⟨Memory.writeAll_wf stores h.1, fun c hc => ?_⟩
  rcases Memory.mem_writeAll hc with hc | hc
  · exact hstores c hc
  · exact h.2 c hc

end Memories

/-! ### Indices of the stores (20_memory.md R73) -/

theorem matIndexOk_matIndex {r c : Nat} (hr : r < 255) (hc : c < 255) : matIndexOk (matIndex r c) = true := by
  simp only [matIndexOk, matIndex, Bool.and_eq_true]
  exact ⟨decide_eq_true (by omega), decide_eq_true (by omega)⟩

theorem bodyIndex_lt {slot i : Nat} (hs : slot < 255) (hi : i < 65536) : bodyIndex slot i < 255 * 65536 := by
  unfold bodyIndex
  omega

theorem matIndexOk_of_ma_inRange {r c : Nat} (h : (Cell.ma r c).inRange = true) : matIndexOk (matIndex r c) = true := by
  obtain ⟨hr, hc⟩ := Bool.and_eq_true_iff.1 h
  exact matIndexOk_matIndex (of_decide_eq_true hr) (of_decide_eq_true hc)

/-- The two matrices have the same rows and columns (R66). -/
theorem matIndexOk_of_mb_inRange {r c : Nat} (h : (Cell.mb r c).inRange = true) : matIndexOk (matIndex r c) = true :=
  matIndexOk_of_ma_inRange h

theorem bodyIndex_lt_of_inRange {slot i : Nat} (h : (Cell.sbody slot i).inRange = true) :
    bodyIndex slot i < 255 * 65536 := by
  obtain ⟨hs, hi⟩ := Bool.and_eq_true_iff.1 h
  exact bodyIndex_lt (of_decide_eq_true hs) (of_decide_eq_true hi)

theorem lt_255_of_lt_toNat {a : Nat} {n : Byte} (h : a < n.toNat) : a < 255 := by
  have := n.isLt
  omega

theorem cornerStores_inArray {k : Byte} {a : Mat} {c : Nat × Byte} (h : c ∈ cornerStores k.toNat a) :
    matIndexOk c.1 = true := by
  obtain ⟨r, j, hr, hj, rfl⟩ := mem_cornerStores.1 h
  exact matIndexOk_matIndex (lt_255_of_lt_toNat hr) (lt_255_of_lt_toNat hj)

theorem slotStores_inArray {w : Nat} {n : Byte} {f : Nat → BitVec w} {c : Nat × BitVec w}
    (h : c ∈ (List.range n.toNat).map fun slot => (slot, f slot)) : decide (c.1 < 255) = true := by
  obtain ⟨slot, hslot, rfl⟩ := List.mem_map.1 h
  exact decide_eq_true (lt_255_of_lt_toNat (List.mem_range.1 hslot))

theorem bodyStores_inArray {s : State} (hk : 1 ≤ s.k.toNat) {c : Nat × Byte} (h : c ∈ bodyStores s) :
    decide (c.1 < 255 * 65536) = true := by
  obtain ⟨slot, i, hslot, hi, rfl⟩ := mem_bodyStores.1 h
  exact decide_eq_true (bodyIndex_lt (lt_255_of_lt_toNat hslot) (lt_trans hi (bodyLen_lt s hk)))

theorem outStores_inArray {s : State} {d : Mat} {c : Nat × Byte} (h : c ∈ outStores s d) :
    decide (c.1 < 65536) = true := by
  obtain ⟨i, j, -, -, hl, rfl⟩ := mem_outStores.1 h
  exact decide_eq_true (lt_trans hl (firstLen s).isLt)

/-! ### Reset (R55) -/

theorem polyOk_reset : polyOk State.reset := List.get_mem _ _

/-- Reset needs only a legal `POLY`, which it keeps. -/
theorem inv_afterReset {s : State} (h : polyOk s) : s.afterReset.Inv :=
  ⟨⟨le_rfl, le_rfl⟩, h, ⟨fun _ => rfl, nofun⟩, memoryOk_nil, memoryOk_nil, memoryOk_nil, memoryOk_nil,
    memoryOk_nil, memoryOk_nil, memoryOk_nil, memoryOk_nil, memoryOk_nil⟩

/-- Settles O23: every field by evaluation, and `POLY` is an entry of the list of legal values. -/
theorem resetState : Obligations.ResetState :=
  ⟨⟨fun r => Vector.getElem_replicate r.isLt, rfl, rfl, rfl, rfl, rfl, rfl, rfl, rfl, rfl, rfl, rfl, rfl⟩, rfl,
    polyOk_reset⟩

/-- Settles O25: the reset state is what reset leaves of itself. -/
theorem resetMeetsInvariant : Obligations.ResetMeetsInvariant := inv_afterReset polyOk_reset

/-! ### The updates a command or a write makes -/

section Updates

variable {s : State}

theorem State.Inv.raise (h : s.Inv) {e : CmdError} {w : Word} (he : wordMayRaise w e) : (s.raise e w).Inv := by
  obtain ⟨hconfig, hpoly, -, hmem⟩ := h
  refine ⟨hconfig, hpoly, ⟨nofun, fun e' h' => ?_⟩, hmem⟩
  obtain rfl : e = e' := Option.some.inj h'
  exact he

theorem State.Inv.clearFault (h : s.Inv) : s.clearFault.Inv := by
  obtain ⟨hconfig, hpoly, -, hmem⟩ := h
  exact ⟨hconfig, hpoly, ⟨fun _ => rfl, nofun⟩, hmem⟩

theorem State.Inv.setConfig (h : s.Inv) {n k : Nat} (hv : configInvalid n k = false) :
    (s.setConfig (BitVec.ofNat 8 n) (BitVec.ofNat 8 k)).Inv := by
  obtain ⟨-, hpoly, herr, hmem⟩ := h
  obtain ⟨hk, hkn, hn⟩ := configInvalid_eq_false.1 hv
  refine ⟨?_, hpoly, herr, hmem⟩
  simp only [configOk, State.setConfig_n, State.setConfig_k, BitVec.toNat_ofNat]
  omega

theorem State.Inv.storeMa (h : s.Inv) {cells : List (Nat × Byte)} (hc : ∀ c ∈ cells, matIndexOk c.1 = true) :
    (s.storeMa cells).Inv := by
  obtain ⟨hconfig, hpoly, herr, hx, hdata, hout, hma, hmb, hshares⟩ := h
  exact ⟨hconfig, hpoly, herr, hx, hdata, hout, hma.writeAll hc, hmb, hshares⟩

theorem State.Inv.storeMb (h : s.Inv) {cells : List (Nat × Byte)} (hc : ∀ c ∈ cells, matIndexOk c.1 = true) :
    (s.storeMb cells).Inv := by
  obtain ⟨hconfig, hpoly, herr, hx, hdata, hout, hma, hmb, hshares⟩ := h
  exact ⟨hconfig, hpoly, herr, hx, hdata, hout, hma, hmb.writeAll hc, hshares⟩

theorem State.Inv.storeOut (h : s.Inv) {cells : List (Nat × Byte)} (len : Half)
    (hc : ∀ c ∈ cells, decide (c.1 < 65536) = true) : (s.storeOut cells len).Inv := by
  obtain ⟨hconfig, hpoly, herr, hx, hdata, hout, hrest⟩ := h
  exact ⟨hconfig, hpoly, herr, hx, hdata, hout.writeAll hc, hrest⟩

/-- ENCODE stores to the slots 0..N-1 only, and its bodies are as long as `ceil(LENGTH / K)`. -/
theorem State.Inv.storeEncode (h : s.Inv) :
    (s.storeShares (idStores s) (lenStores s) (bodyLenStores s) (bodyStores s)).Inv := by
  obtain ⟨hconfig, hpoly, herr, hx, hdata, hout, hma, hmb, hsid, hslen, hsblen, hsbody⟩ := h
  exact ⟨hconfig, hpoly, herr, hx, hdata, hout, hma, hmb, hsid.writeAll fun _ => slotStores_inArray,
    hslen.writeAll fun _ => slotStores_inArray, hsblen.writeAll fun _ => slotStores_inArray,
    hsbody.writeAll fun _ => bodyStores_inArray hconfig.1⟩

/-- A host write to a cell that exists writes inside its array, or clears the fault, or touches nothing the invariant
speaks of (R62). -/
theorem State.Inv.writeCell (h : s.Inv) (d : Word) {c : Cell} (hc : c.inRange = true) : (writeCell s d c).Inv := by
  obtain ⟨hconfig, hpoly, herr, hx, hdata, hout, hma, hmb, hsid, hslen, hsblen, hsbody⟩ := id h
  cases c with
  | err => exact h.clearFault
  | x i => exact ⟨hconfig, hpoly, herr, hx.write _ hc, hdata, hout, hma, hmb, hsid, hslen, hsblen, hsbody⟩
  | data i => exact ⟨hconfig, hpoly, herr, hx, hdata.write _ hc, hout, hma, hmb, hsid, hslen, hsblen, hsbody⟩
  | out i => exact ⟨hconfig, hpoly, herr, hx, hdata, hout.write _ hc, hma, hmb, hsid, hslen, hsblen, hsbody⟩
  | ma r c =>
    have hi := matIndexOk_of_ma_inRange hc
    exact ⟨hconfig, hpoly, herr, hx, hdata, hout, hma.write _ hi, hmb, hsid, hslen, hsblen, hsbody⟩
  | mb r c =>
    have hi := matIndexOk_of_mb_inRange hc
    exact ⟨hconfig, hpoly, herr, hx, hdata, hout, hma, hmb.write _ hi, hsid, hslen, hsblen, hsbody⟩
  | sid i => exact ⟨hconfig, hpoly, herr, hx, hdata, hout, hma, hmb, hsid.write _ hc, hslen, hsblen, hsbody⟩
  | slen i => exact ⟨hconfig, hpoly, herr, hx, hdata, hout, hma, hmb, hsid, hslen.write _ hc, hsblen, hsbody⟩
  | sblen i => exact ⟨hconfig, hpoly, herr, hx, hdata, hout, hma, hmb, hsid, hslen, hsblen.write _ hc, hsbody⟩
  | sbody slot i =>
    have hi := decide_eq_true (bodyIndex_lt_of_inRange hc)
    exact ⟨hconfig, hpoly, herr, hx, hdata, hout, hma, hmb, hsid, hslen, hsblen, hsbody.write _ hi⟩
  | cmd | einfo | ctrl | n | k | length | chunk | scnt | olen | poly | e => exact h

end Updates

/-! ### Commands, transactions and steps -/

/-- The two cases of a faulting word: illegal (R237), or a command with that error in its list (R238). -/
theorem wordMayRaise_iff {w : Word} {e : CmdError} :
    wordMayRaise w e ↔
      (∀ why, decode w = .error why → e = .illegalCommand) ∧ ∀ i, decode w = .ok i → e ∈ errorsOf i := by
  cases hw : decode w <;> simp [wordMayRaise, hw]

theorem wordMayRaise_of_error {w : Word} {why : DecodeError} (hw : decode w = .error why) :
    wordMayRaise w .illegalCommand :=
  wordMayRaise_iff.2 ⟨fun _ _ => rfl, fun _ hi => nomatch hw.symm.trans hi⟩

theorem wordMayRaise_of_ok {w : Word} {i : Instr} {e : CmdError} (hw : decode w = .ok i) (he : e ∈ errorsOf i) :
    wordMayRaise w e :=
  wordMayRaise_iff.2 ⟨fun _ hr => (nomatch hw.symm.trans hr), fun _ hi => Except.ok.inj (hw.symm.trans hi) ▸ he⟩

/-- A command that a word decodes to keeps the invariant: an error leaves that same word in `EINFO`. -/
theorem exec_keeps_inv {w : Word} {i : Instr} {s t : State} (hw : decode w = .ok i) (hs : s.Inv)
    (h : exec i s = .next t) : t.Inv := by
  rcases exec_cases h with ⟨e, he, rfl⟩ | ⟨rd, v, -, rfl⟩ | ⟨n, k, -, hv, rfl⟩ | ⟨-, rfl⟩ | ⟨r, -, -, rfl⟩ | ⟨-, rfl⟩ |
    ⟨d, -, -, rfl⟩
  · rw [encode_of_decode hw]
    exact hs.raise (wordMayRaise_of_ok hw he)
  · exact hs
  · exact hs.setConfig hv
  · exact hs.storeMa fun _ => cornerStores_inArray
  · exact hs.storeMb fun _ => cornerStores_inArray
  · exact hs.storeEncode
  · exact hs.storeOut _ fun _ => outStores_inArray

theorem issue_keeps_inv {w : Word} {s t : State} (hs : s.Inv) (h : issue w s = .next t) : t.Inv := by
  rcases issue_cases h with ⟨-, rfl⟩ | ⟨-, ⟨why, hw⟩, rfl⟩ | ⟨-, i, hw, he⟩
  · exact hs
  · exact hs.raise (wordMayRaise_of_error hw)
  · exact exec_keeps_inv hw hs he

theorem busWrite_keeps_inv {off d : Word} {s t : State} (hs : s.Inv) (h : busWrite off d s = .next t) : t.Inv := by
  rcases busWrite_cases h with ⟨-, rfl⟩ | ⟨-, hi⟩ | ⟨c, hc, -, rfl⟩
  · exact hs
  · exact issue_keeps_inv (s := s.answer .ok) hs hi
  · exact hs.writeCell d (cellAt_inRange hc)

/-- Settles O26: no event, a read, a write or reset, each of which keeps the invariant. -/
theorem stepKeepsInvariant : Obligations.StepKeepsInvariant := by
  intro s t hs h
  rcases step_cases h with ⟨-, rfl⟩ | ⟨off, rest, -, rfl⟩ | ⟨off, d, rest, -, hw⟩ | ⟨rest, -, rfl⟩
  · exact hs
  · obtain ⟨a, ha⟩ := busRead_eq_answer off (s.takeEvent rest)
    rw [ha]
    exact hs
  · exact busWrite_keeps_inv (s := s.takeEvent rest) hs hw
  · obtain ⟨-, hpoly, -⟩ := hs
    exact inv_afterReset (s := s.takeEvent rest) hpoly

end Sys2Proof.Machine
end

section
/-! PROOFS. The host bus of 20_memory.md: the address map and its holes, what a read and a write of a cell do, and the
run over a list of events. -/

namespace Sys2Proof.Machine

/-! ### The address map and its holes (R66, R67) -/

theorem ifInRange_eq_some {c d : Cell} : ifInRange c = some d ↔ c.inRange = true ∧ c = d := by
  unfold ifInRange
  split_ifs with h <;> simp [h]

theorem ifInRange_eq_none {c : Cell} : ifInRange c = none ↔ c.inRange = false := by
  unfold ifInRange
  split_ifs with h <;> simp [h]

/-- The control cells stand at 0x0 to 0xA (R40). -/
theorem controlCellAt_eq_none {o : Nat} : controlCellAt o = none ↔ 0xB ≤ o := by
  constructor
  · intro h
    by_contra ho
    interval_cases o <;> cases h
  · intro ho
    obtain ⟨i, rfl⟩ := Nat.exists_eq_add_of_le' ho
    rfl

theorem controlCellAt_eq_some {o : Nat} {c : Cell} : controlCellAt o = some c ↔ c.offset = o ∧ o < 0xB := by
  constructor
  · intro h
    have ho : o < 0xB := by
      by_contra ho
      cases h.symm.trans (controlCellAt_eq_none.2 (Nat.le_of_not_lt ho))
    refine ⟨?_, ho⟩
    interval_cases o <;> cases h <;> rfl
  · rintro ⟨rfl, ho⟩
    cases c with
    | cmd | err | einfo | ctrl | n | k | length | chunk | scnt | olen | poly => rfl
    | e | x | sid | slen | sblen | data | out | ma | mb | sbody =>
      unfold Cell.offset at ho
      dsimp only at ho
      omega

/-- Settles O16. A branch of the decoder holds the cells of one row, so of the branches only that of the row of `c` can
give `c`; what is left is the arithmetic of that row. -/
theorem addressMap : Obligations.AddressMap := by
  intro off c
  simp only [cellAt, ite_eq_iff, controlCellAt_eq_some, ifInRange_eq_some, Option.some.injEq]
  unfold Cell.inRange Cell.offset
  cases c
  all_goals
    simp only [Cell.e.injEq, Cell.x.injEq, Cell.sid.injEq, Cell.slen.injEq, Cell.sblen.injEq, Cell.data.injEq,
      Cell.out.injEq, Cell.ma.injEq, Cell.mb.injEq, Cell.sbody.injEq, reduceCtorEq, and_false, false_or, or_false,
      true_and, Bool.and_eq_true, decide_eq_true_eq, Fin.ext_iff, Fin.val_ofNat]
    omega

/-! ### Transactions at a cell and at a hole (R61, R62, R65) -/

theorem busRead_of_cell {off : Word} {c : Cell} (h : cellAt off = some c) (s : State) :
    busRead off s = s.answer (.okRead (readCell s c)) := by
  simp only [busRead, h]

theorem busRead_of_hole {off : Word} (h : cellAt off = none) (s : State) : busRead off s = s.answer .busError := by
  simp only [busRead, h]

theorem busWrite_of_cell {off : Word} {c : Cell} (h : cellAt off = some c) (hc : c ≠ .cmd) (d : Word) (s : State) :
    busWrite off d s = .next ((writeCell s d c).answer .ok) := by
  unfold busWrite
  rw [h]
  cases c with
  | cmd => exact absurd rfl hc
  | _ => rfl

theorem busWrite_of_hole {off : Word} (h : cellAt off = none) (d : Word) (s : State) :
    busWrite off d s = .next (s.answer .busError) := by
  simp only [busWrite, h]

/-- Settles O17. An offset at which no branch of the decoder gives a cell lies in a hole, branch by branch; and by the
address map no cell lies in one. -/
theorem addressHoles : Obligations.AddressHoles := by
  refine ⟨fun off d s h => ⟨busRead_of_hole h s, busWrite_of_hole h d s⟩, fun off => ⟨fun h => ?_, fun hole => ?_⟩⟩
  · simp only [cellAt, ite_eq_iff, controlCellAt_eq_none, ifInRange_eq_none] at h
    unfold Cell.inRange at h
    repeat' obtain ⟨_, h⟩ | ⟨_, h⟩ := (h : _ ∧ _ ∨ _ ∧ _)
    any_goals simp only [Bool.and_eq_false_iff, decide_eq_false_iff_not, reduceCtorEq] at h
    all_goals omega
  · refine Option.eq_none_iff_forall_ne_some.2 fun c hc => ?_
    obtain ⟨hrange, hoffset⟩ := (addressMap off c).1 hc
    rw [← hoffset] at hole
    unfold Cell.inRange at hrange
    unfold Cell.offset at hole
    cases c
    all_goals
      simp only [Bool.and_eq_true, decide_eq_true_eq] at hole hrange
      omega

theorem step_read {s : State} {off : Word} {rest : List HostEvent} (hp : s.pending = .read off :: rest) :
    step s = .next (busRead off (s.takeEvent rest)) := step_of_pending hp

theorem step_write {s : State} {off d : Word} {rest : List HostEvent} (hp : s.pending = .write off d :: rest) :
    step s = busWrite off d (s.takeEvent rest) := step_of_pending hp

theorem step_write_of_cell {s : State} {off d : Word} {rest : List HostEvent} {c : Cell}
    (hp : s.pending = .write off d :: rest) (h : cellAt off = some c) (hc : c ≠ .cmd) :
    step s = .next ((writeCell (s.takeEvent rest) d c).answer .ok) :=
  (step_write hp).trans (busWrite_of_cell h hc d _)

/-- The state after a transaction that only answers, as the statements write it. -/
theorem takeEvent_answer (s : State) (rest : List HostEvent) (a : Response) :
    (s.takeEvent rest).answer a = answered s rest a := rfl

/-- Settles O18: the step is a read at the cell, or at the hole, of the offset of `addr`. -/
theorem hostReadAnswers : Obligations.HostReadAnswers := by
  refine fun s addr rest hp => ⟨fun c hc => ?_, fun hc => ?_⟩
  · rw [step_read hp, offsetOf, busRead_of_cell hc, takeEvent_answer]
  · rw [step_read hp, offsetOf, busRead_of_hole hc, takeEvent_answer]

/-! ### What a write to a cell changes (R62, R63) -/

/-- A read-only cell keeps its value (R64). -/
theorem writeCell_of_readOnly {c : Cell} (h : c.readOnly = true) (s : State) (d : Word) : writeCell s d c = s := by
  cases c with
  | einfo | n | k | olen | poly => rfl
  | _ => cases h

/-- Settles O20: a hole answers before anything is written, and a read-only cell (`CMD` is none) keeps its value. -/
theorem writesThatChangeNothing : Obligations.WritesThatChangeNothing := by
  refine fun s addr d rest hp => ⟨fun hc => ?_, fun c hc hro => ?_⟩
  · rw [step_write hp, offsetOf, busWrite_of_hole hc, takeEvent_answer]
  · have hcmd : c ≠ .cmd := fun e => by cases e; cases hro
    rw [step_write_of_cell hp hc hcmd, writeCell_of_readOnly hro, takeEvent_answer]

/-- The port is no cell. -/
theorem writeCell_port (s : State) (d : Word) (c : Cell) :
    (writeCell s d c).pending = s.pending ∧ (writeCell s d c).answers = s.answers := by
  cases c <;> exact ⟨rfl, rfl⟩

/-- Only a write to `ERR` touches the fault (R244). -/
theorem writeCell_fault {c : Cell} (hc : c ≠ .err) (s : State) (d : Word) :
    (writeCell s d c).err = s.err ∧ (writeCell s d c).einfo = s.einfo := by
  cases c with
  | err => exact absurd rfl hc
  | _ => exact ⟨rfl, rfl⟩

/-- What a cell reads does not depend on the answers given. -/
@[simp] theorem readCell_answer (s : State) (a : Response) (c : Cell) : readCell (s.answer a) c = readCell s c := by
  cases c <;> rfl

/-! A memory cell after a write to its memory, zero-extended as a read of the cell gives it. -/

theorem setWidth_byteAt_write_self (s : State) (m : Memory 8) (a no : Nat) (v : Byte) :
    (s.byteAt (Memory.write m a v) a no).setWidth 32 = v.setWidth 32 := by
  rw [byteAt_of_read (Memory.read_write_same m a v)]

theorem setWidth_halfAt_write_self (s : State) (m : Memory 16) (a no : Nat) (v : Half) :
    (s.halfAt (Memory.write m a v) a no).setWidth 32 = v.setWidth 32 := by
  rw [halfAt_of_read (Memory.read_write_same m a v)]

theorem setWidth_byteAt_write_of_ne (s : State) (m : Memory 8) {a b : Nat} (h : b ≠ a) (no : Nat) (v : Byte) :
    (s.byteAt (Memory.write m a v) b no).setWidth 32 = (s.byteAt m b no).setWidth 32 := by
  rw [State.byteAt, Memory.read_write_of_ne m v h, State.byteAt]

theorem setWidth_halfAt_write_of_ne (s : State) (m : Memory 16) {a b : Nat} (h : b ≠ a) (no : Nat) (v : Half) :
    (s.halfAt (Memory.write m a v) b no).setWidth 32 = (s.halfAt m b no).setWidth 32 := by
  rw [State.halfAt, Memory.read_write_of_ne m v h, State.halfAt]

/-- A writable cell then reads the data, cut to the width of the cell. -/
theorem readCell_writeCell_self {c : Cell} (hcmd : c ≠ .cmd) (herr : c ≠ .err) (hro : c.readOnly = false) (s : State)
    (d : Word) : readCell (writeCell s d c) c = (d.setWidth c.width).setWidth 32 := by
  cases c with
  | cmd => exact absurd rfl hcmd
  | err => exact absurd rfl herr
  | einfo | n | k | olen | poly => cases hro
  | ctrl | length | chunk | scnt => rfl
  | e i => exact congrArg (BitVec.setWidth 32) (State.getE_setE_self s i _)
  | x | sid | data | out | ma | mb | sbody => exact setWidth_byteAt_write_self _ _ _ _ _
  | slen | sblen => exact setWidth_halfAt_write_self _ _ _ _ _

theorem Cell.width_le (c : Cell) : c.width ≤ 32 := by
  unfold Cell.width
  cases c <;> simp only <;> omega

/-- Settles O21: the cell reads the data cut to its width and extended again, and no width is above 32. -/
theorem writeThenReadKeepsLowBits : Obligations.WriteThenReadKeepsLowBits := by
  intro s off d rest c hp hc hcmd herr hro
  obtain ⟨-, hanswers⟩ := writeCell_port (s.takeEvent rest) d c
  refine ⟨_, step_write_of_cell hp hc hcmd, congrArg _ hanswers, ?_⟩
  rw [readCell_answer, readCell_writeCell_self hcmd herr hro, BitVec.toNat_setWidth_of_le c.width_le,
    BitVec.toNat_setWidth]

/-- Two cells of a matrix have two indices (R66); `MA` and `MB` have the same rows and columns. -/
theorem matIndex_ne {r c r' c' : Nat} (h : (Cell.ma r c).inRange = true) (h' : (Cell.ma r' c').inRange = true)
    (hne : ¬(r' = r ∧ c' = c)) : matIndex r' c' ≠ matIndex r c := by
  have hc := of_decide_eq_true (Bool.and_eq_true_iff.1 h).2
  have hc' := of_decide_eq_true (Bool.and_eq_true_iff.1 h').2
  exact fun e => hne (matIndex_inj (by omega) (by omega) e)

theorem bodyIndex_ne {r i r' i' : Nat} (h : (Cell.sbody r i).inRange = true) (h' : (Cell.sbody r' i').inRange = true)
    (hne : ¬(r' = r ∧ i' = i)) : bodyIndex r' i' ≠ bodyIndex r i := by
  have hi := of_decide_eq_true (Bool.and_eq_true_iff.1 h).2
  have hi' := of_decide_eq_true (Bool.and_eq_true_iff.1 h').2
  exact fun e => hne (bodyIndex_inj hi' hi e)

/-- A write to any cell but `ERR`, which clears `EINFO` too, leaves what every other cell reads: the other cells of the
same memory by their index, all others because they stand in another field. -/
theorem readCell_writeCell_of_ne {c c' : Cell} (herr : c ≠ .err) (hr : c.inRange = true) (hr' : c'.inRange = true)
    (hne : c' ≠ c) (s : State) (d : Word) : readCell (writeCell s d c) c' = readCell s c' := by
  cases c with
  | err => exact absurd rfl herr
  | cmd | einfo | n | k | olen | poly => rfl
  | ctrl => cases c' with
    | ctrl => exact absurd rfl hne
    | _ => rfl
  | length => cases c' with
    | length => exact absurd rfl hne
    | _ => rfl
  | chunk => cases c' with
    | chunk => exact absurd rfl hne
    | _ => rfl
  | scnt => cases c' with
    | scnt => exact absurd rfl hne
    | _ => rfl
  | e i => cases c' with
    | e j =>
      have hj : j ≠ i := mt (congrArg Cell.e) hne
      exact congrArg (BitVec.setWidth 32) ((State.getE_setE s i j _).trans (if_neg hj))
    | _ => rfl
  | x i => cases c' with
    | x j => exact setWidth_byteAt_write_of_ne _ _ (mt (congrArg Cell.x) hne) _ _
    | _ => rfl
  | sid i => cases c' with
    | sid j => exact setWidth_byteAt_write_of_ne _ _ (mt (congrArg Cell.sid) hne) _ _
    | _ => rfl
  | slen i => cases c' with
    | slen j => exact setWidth_halfAt_write_of_ne _ _ (mt (congrArg Cell.slen) hne) _ _
    | _ => rfl
  | sblen i => cases c' with
    | sblen j => exact setWidth_halfAt_write_of_ne _ _ (mt (congrArg Cell.sblen) hne) _ _
    | _ => rfl
  | data i => cases c' with
    | data j => exact setWidth_byteAt_write_of_ne _ _ (mt (congrArg Cell.data) hne) _ _
    | _ => rfl
  | out i => cases c' with
    | out j => exact setWidth_byteAt_write_of_ne _ _ (mt (congrArg Cell.out) hne) _ _
    | _ => rfl
  | ma r i => cases c' with
    | ma q j => exact setWidth_byteAt_write_of_ne _ _ (matIndex_ne hr hr' (by simpa using hne)) _ _
    | _ => rfl
  | mb r i => cases c' with
    | mb q j => exact setWidth_byteAt_write_of_ne _ _ (matIndex_ne hr hr' (by simpa using hne)) _ _
    | _ => rfl
  | sbody r i => cases c' with
    | sbody q j => exact setWidth_byteAt_write_of_ne _ _ (bodyIndex_ne hr hr' (by simpa using hne)) _ _
    | _ => rfl

/-- Settles O22: the write is to another cell, and neither the fault nor the port is one it touches. -/
theorem writeLeavesOtherCells : Obligations.WriteLeavesOtherCells := by
  intro s off d rest c c' hp hc hcmd herr hr' hne
  have hread := readCell_writeCell_of_ne herr (cellAt_inRange hc) hr' hne (s.takeEvent rest) d
  obtain ⟨hfault, hinfo⟩ := writeCell_fault herr (s.takeEvent rest) d
  obtain ⟨hpending, -⟩ := writeCell_port (s.takeEvent rest) d c
  exact ⟨_, step_write_of_cell hp hc hcmd, (readCell_answer _ _ _).trans hread, hfault, hinfo, hpending⟩

/-! ### Runs (70_reset_and_hazards.md R286, R287) -/

/-- Every command is a total function of the state (R286). -/
theorem exec_total (i : Instr) (s : State) : ∃ t, exec i s = .next t := by
  cases i <;> exact ⟨_, rfl⟩

/-- Issuing a word ends, and leaves the port alone (R242, R37). -/
theorem issue_total (w : Word) (s : State) :
    ∃ t, issue w s = .next t ∧ t.pending = s.pending ∧ t.answers = s.answers := by
  unfold issue
  split_ifs
  · exact ⟨_, rfl, rfl, rfl⟩
  · split
    · exact ⟨_, rfl, rfl, rfl⟩
    · next i _ =>
      obtain ⟨t, ht⟩ := exec_total i s
      obtain ⟨-, -, -, -, -, -, -, hpending, hanswers, -⟩ := commandsWriteOnlyTheirOwn i s t ht
      exact ⟨t, ht, hpending, hanswers⟩

/-- A write answers once, wherever it goes. -/
theorem busWrite_total (off d : Word) (s : State) :
    ∃ t a, busWrite off d s = .next t ∧ t.pending = s.pending ∧ t.answers = a :: s.answers := by
  unfold busWrite
  split
  · exact ⟨_, _, rfl, rfl, rfl⟩
  · obtain ⟨t, ht, hpending, hanswers⟩ := issue_total d (s.answer .ok)
    exact ⟨t, .ok, ht, hpending, hanswers⟩
  · next c _ _ =>
    obtain ⟨hpending, hanswers⟩ := writeCell_port s d c
    exact ⟨_, .ok, rfl, hpending, congrArg _ hanswers⟩

/-- An event is performed wholly: a transaction answers once, reset not at all, and neither touches the list of events. -/
theorem perform_total (ev : HostEvent) (s : State) :
    ∃ t, perform ev s = .next t ∧ t.pending = s.pending ∧
      t.answers.length = s.answers.length + (isTransaction ev).toNat := by
  cases ev with
  | read off =>
    obtain ⟨a, ha⟩ := busRead_eq_answer off s
    exact ⟨s.answer a, congrArg Host.Outcome.next ha, rfl, rfl⟩
  | write off d =>
    obtain ⟨t, a, ht, hpending, hanswers⟩ := busWrite_total off d s
    exact ⟨t, ht, hpending, congrArg List.length hanswers⟩
  | reset => exact ⟨_, rfl, rfl, rfl⟩

theorem run_succ_of_step {s t : State} (h : step s = .next t) (k : Nat) :
    Host.Core.run core (k + 1) s = Host.Core.run core k t := by
  have hstep : core.step s = .next t := h
  simp only [Host.Core.run, hstep]

/-- Settles O14, by induction on the pending events: a step performs the first and leaves the rest pending. -/
theorem runAnswersEveryTransaction : Obligations.RunAnswersEveryTransaction := by
  intro s
  induction hp : s.pending generalizing s with
  | nil => exact ⟨s, rfl, hp, rfl⟩
  | cons ev rest ih =>
    obtain ⟨u, hu, hpending, hanswers⟩ := perform_total ev (s.takeEvent rest)
    obtain ⟨t, ht, hnone, hcount⟩ := ih u hpending
    have hstep : step s = .next u := (step_of_pending hp).trans hu
    refine ⟨t, (run_succ_of_step hstep rest.length).trans ht, hnone, ?_⟩
    rw [hcount, hanswers, State.takeEvent_answers, List.filter_cons]
    cases isTransaction ev
    · rfl
    · simp only [Bool.toNat_true, if_true, List.length_cons]
      omega

end Sys2Proof.Machine
end

section
/-! PROOFS. Encoding (30_encoding.md): the fields of the word of each format, the round trips of decoder and encoder, the
opcode table as match and mask, and an illegal word at the port. -/

namespace Sys2Proof

/-! ### The fields of an encoded word (R91 to R96) -/

section Fields

theorem regField_eq {w : Word} {hi : Nat} {r : Reg} (h : slice w hi (hi - 3) = r.val) : regField w hi = r := by
  refine Fin.ext ?_
  rw [regField_val, h, Nat.mod_eq_of_lt r.isLt]

variable {op : Nat} (hop : op < 256)
include hop

theorem formatR_fields (rd ra rb : Reg) :
    slice (formatR op rd ra rb) 31 24 = op ∧ slice (formatR op rd ra rb) 11 0 = 0 ∧
    regField (formatR op rd ra rb) 23 = rd ∧ regField (formatR op rd ra rb) 19 = ra ∧
    regField (formatR op rd ra rb) 15 = rb := by
  have hfits := formatR_fits rd ra rb
  refine ⟨opcode_commandWord hop hfits, ?_, regField_eq ?_, regField_eq ?_, regField_eq ?_⟩
  all_goals
    simp only [formatR, slice_eq, commandWord_toNat hop hfits]
    omega

theorem formatU_fields (rd ra : Reg) :
    slice (formatU op rd ra) 31 24 = op ∧ slice (formatU op rd ra) 15 0 = 0 ∧
    regField (formatU op rd ra) 23 = rd ∧ regField (formatU op rd ra) 19 = ra := by
  have hfits := formatU_fits rd ra
  refine ⟨opcode_commandWord hop hfits, ?_, regField_eq ?_, regField_eq ?_⟩
  all_goals
    simp only [formatU, slice_eq, commandWord_toNat hop hfits]
    omega

/-- The immediate is read as its low 8 bits (R93, R99). -/
theorem formatI_fields (rd ra : Reg) (imm8 : Nat) :
    slice (formatI op rd ra imm8) 31 24 = op ∧ slice (formatI op rd ra imm8) 15 8 = 0 ∧
    regField (formatI op rd ra imm8) 23 = rd ∧ regField (formatI op rd ra imm8) 19 = ra ∧
    slice (formatI op rd ra imm8) 7 0 = imm8 % 256 := by
  have hfits := formatI_fits rd ra imm8
  refine ⟨opcode_commandWord hop hfits, ?_, regField_eq ?_, regField_eq ?_, ?_⟩
  all_goals
    simp only [formatI, slice_eq, commandWord_toNat hop hfits]
    omega

theorem formatD_fields (rd : Reg) :
    slice (formatD op rd) 31 24 = op ∧ slice (formatD op rd) 19 0 = 0 ∧ regField (formatD op rd) 23 = rd := by
  have hfits : rd.val * 2 ^ 20 < 2 ^ 24 := by omega
  refine ⟨opcode_commandWord hop hfits, ?_, regField_eq ?_⟩
  all_goals
    simp only [formatD, slice_eq, commandWord_toNat hop hfits]
    omega

/-- The immediates are read as their low 12 bits (R95, R99). -/
theorem formatC_fields (n12 k12 : Nat) :
    slice (formatC op n12 k12) 31 24 = op ∧ slice (formatC op n12 k12) 23 12 = n12 % 4096 ∧
    slice (formatC op n12 k12) 11 0 = k12 % 4096 := by
  have hfits := formatC_fits n12 k12
  refine ⟨opcode_commandWord hop hfits, ?_, ?_⟩
  all_goals
    simp only [formatC, slice_eq, commandWord_toNat hop hfits]
    omega

theorem formatZ_fields : slice (formatZ op) 31 24 = op ∧ slice (formatZ op) 23 0 = 0 := by
  refine ⟨opcode_commandWord hop (by decide), ?_⟩
  simp only [formatZ, slice_eq, commandWord_toNat hop (show 0 < 2 ^ 24 by decide)]
  omega

end Fields

/-! ### The round trips (R97 to R100) -/

/-- Settles O1, by the format of the command: its word has the command's opcode, a `zero` field of 0, and the operands in
their fields; an immediate in its range is its own low bits. -/
theorem decodeOfEncode : Obligations.DecodeOfEncode := by
  intro i hwf
  cases i with
  | gfadd rd ra rb | gfsub rd ra rb | gfmul rd ra rb | gfdiv rd ra rb | gfpow rd ra rb =>
    simp [encode, decode, requireZero, formatR_fields]
  | gfinv rd ra | peval rd ra => simp [encode, decode, requireZero, formatU_fields]
  | gfzero rd | gfone rd => simp [encode, decode, requireZero, formatD_fields]
  | gfpowi rd ra imm8 =>
    have himm : imm8 < 256 := of_decide_eq_true hwf
    simp [encode, decode, requireZero, formatI_fields, Nat.mod_eq_of_lt himm]
  | config n12 k12 =>
    obtain ⟨hn, hk⟩ := Bool.and_eq_true_iff.1 hwf
    simp [encode, decode, formatC_fields, Nat.mod_eq_of_lt (of_decide_eq_true hn),
      Nat.mod_eq_of_lt (of_decide_eq_true hk)]
  | vand | minv | encode | decode => simp [encode, decode, requireZero, formatZ_fields]

theorem slice_lt (w : Word) (hi lo : Nat) : slice w hi lo < 2 ^ (hi + 1 - lo) := Nat.mod_lt _ (Nat.two_pow_pos _)

/-- An immediate the decoder reads is in the range of its field (R99). -/
theorem wellFormed_of_decode {w : Word} {i : Instr} (h : decode w = .ok i) : i.wellFormed = true := by
  unfold decode at h
  split at h
  case h_9 =>
    obtain ⟨-, rfl⟩ := requireZero_eq_ok.1 h
    exact decide_eq_true (slice_lt w 7 0)
  case h_10 =>
    cases h
    exact Bool.and_eq_true_iff.2 ⟨decide_eq_true (slice_lt w 23 12), decide_eq_true (slice_lt w 11 0)⟩
  case h_16 => cases h
  all_goals
    obtain ⟨-, rfl⟩ := requireZero_eq_ok.1 h
    rfl

/-- Settles O2. -/
theorem encodeOfDecode : Obligations.EncodeOfDecode := fun _ _ h => ⟨wellFormed_of_decode h, encode_of_decode h⟩

/-- Settles O4: the decoder evaluates on each word. -/
theorem specWordsDecode : Obligations.SpecWordsDecode := by
  unfold Obligations.SpecWordsDecode
  decide

/-! ### Match and mask (R97, R98) -/

/-- The row whose mask keeps the opcode and the `zero` field `[hi:lo]`, and whose match has 0 in that field. -/
def zeroFieldRow (mnemonic : String) (op hi lo : Nat) : OpcodeRow :=
  ⟨mnemonic, commandWord op 0, commandWord 0xFF ((2 ^ (hi + 1 - lo) - 1) * 2 ^ lo)⟩

/-- A mask of `n` ones at bit `lo` keeps the `n` bits from `lo` up. -/
theorem and_ones_mul (x n lo : Nat) : x &&& (2 ^ n - 1) * 2 ^ lo = x / 2 ^ lo % 2 ^ n * 2 ^ lo := by
  refine Nat.eq_of_testBit_eq fun i => ?_
  simp only [Nat.testBit_and, Nat.testBit_mul_two_pow, Nat.testBit_two_pow_sub_one, Nat.testBit_mod_two_pow,
    Nat.testBit_div_two_pow]
  by_cases h : lo ≤ i
  · simp [h, Bool.and_comm]
  · simp [h]

theorem zeroMask_lt {hi : Nat} (hhi : hi < 24) (lo : Nat) : (2 ^ (hi + 1 - lo) - 1) * 2 ^ lo < 2 ^ 24 := by
  rcases le_or_gt lo (hi + 1) with h | h
  · calc (2 ^ (hi + 1 - lo) - 1) * 2 ^ lo < 2 ^ (hi + 1 - lo) * 2 ^ lo :=
          Nat.mul_lt_mul_of_pos_right (Nat.sub_lt (Nat.two_pow_pos _) Nat.one_pos) (Nat.two_pow_pos _)
      _ = 2 ^ (hi + 1) := by rw [← pow_add, Nat.sub_add_cancel h]
      _ ≤ 2 ^ 24 := Nat.pow_le_pow_right (by decide) hhi
  · simp [Nat.sub_eq_zero_of_le h.le]

theorem slice_and_zeroMask (w : Word) (hi lo : Nat) :
    w.toNat &&& (2 ^ (hi + 1 - lo) - 1) * 2 ^ lo = slice w hi lo * 2 ^ lo := and_ones_mul w.toNat (hi + 1 - lo) lo

/-- The `zero` field stands below the opcode. -/
theorem slice_mul_lt {hi : Nat} (hhi : hi < 24) (lo : Nat) (w : Word) : slice w hi lo * 2 ^ lo < 2 ^ 24 :=
  slice_and_zeroMask w hi lo ▸ Nat.and_le_right.trans_lt (zeroMask_lt hhi lo)

/-- What the mask of a row keeps of a word: its opcode and its `zero` field, each in its place. -/
theorem toNat_and_mask {m : String} {op hi lo : Nat} (hhi : hi < 24) (w : Word) :
    (w &&& (zeroFieldRow m op hi lo).mask).toNat = slice w 31 24 * 2 ^ 24 + slice w hi lo * 2 ^ lo := by
  have hmask := zeroMask_lt hhi lo
  have hopcode : w.toNat &&& 2 ^ 24 * 0xFF = 2 ^ 24 * slice w 31 24 := by
    rw [mul_comm, mul_comm _ (slice w 31 24)]
    exact slice_and_zeroMask w 31 24
  calc (w &&& (zeroFieldRow m op hi lo).mask).toNat
      = w.toNat &&& (2 ^ 24 * 0xFF ||| (2 ^ (hi + 1 - lo) - 1) * 2 ^ lo) := by
        rw [BitVec.toNat_and, zeroFieldRow, commandWord_toNat (by decide) hmask, mul_comm 0xFF,
          Nat.two_pow_add_eq_or_of_lt hmask]
    _ = 2 ^ 24 * slice w 31 24 ||| slice w hi lo * 2 ^ lo := by
        rw [Nat.and_or_distrib_left, hopcode, slice_and_zeroMask]
    _ = slice w 31 24 * 2 ^ 24 + slice w hi lo * 2 ^ lo := by
        rw [← Nat.two_pow_add_eq_or_of_lt (slice_mul_lt hhi lo w), mul_comm (2 ^ 24)]

/-- A row matches when the opcode is its own and the `zero` field is 0 (R98). -/
theorem rowMatches_zeroFieldRow {m : String} {op hi lo : Nat} (hop : op < 256) (hhi : hi < 24) {w : Word} :
    rowMatches (zeroFieldRow m op hi lo) w = true ↔ slice w 31 24 = op ∧ slice w hi lo = 0 := by
  have hmatch : (zeroFieldRow m op hi lo).matchBits.toNat = op * 2 ^ 24 + 0 := commandWord_toNat hop (by decide)
  have hlt := slice_mul_lt hhi lo w
  have hzero : slice w hi lo = 0 ↔ slice w hi lo * 2 ^ lo = 0 := by simp
  rw [rowMatches, beq_iff_eq, ← BitVec.toNat_inj, toNat_and_mask hhi, hmatch, hzero]
  omega

/-- The row of a command (R97). CONFIG has no `zero` field: bits 0 down to 1 are none. -/
def rowOf : Instr → OpcodeRow
  | .gfadd _ _ _ => zeroFieldRow "GFADD" 0x10 11 0
  | .gfsub _ _ _ => zeroFieldRow "GFSUB" 0x11 11 0
  | .gfmul _ _ _ => zeroFieldRow "GFMUL" 0x12 11 0
  | .gfdiv _ _ _ => zeroFieldRow "GFDIV" 0x13 11 0
  | .gfinv _ _ => zeroFieldRow "GFINV" 0x14 15 0
  | .gfpow _ _ _ => zeroFieldRow "GFPOW" 0x15 11 0
  | .gfzero _ => zeroFieldRow "GFZERO" 0x16 19 0
  | .gfone _ => zeroFieldRow "GFONE" 0x17 19 0
  | .gfpowi _ _ _ => zeroFieldRow "GFPOWI" 0x18 15 8
  | .config _ _ => zeroFieldRow "CONFIG" 0x20 0 1
  | .peval _ _ => zeroFieldRow "PEVAL" 0x21 15 0
  | .vand => zeroFieldRow "VAND" 0x22 23 0
  | .minv => zeroFieldRow "MINV" 0x23 23 0
  | .encode => zeroFieldRow "ENCODE" 0x24 23 0
  | .decode => zeroFieldRow "DECODE" 0x25 23 0

/-- The opcode map holds the row of each command. -/
theorem rowOf_mem_opcodeTable (i : Instr) : rowOf i ∈ opcodeTable := by
  cases i
  all_goals
    dsimp only [rowOf]
    decide

theorem rowOf_mnemonic (i : Instr) : (rowOf i).mnemonic = mnemonicOf i := by
  cases i <;> rfl

/-- The opcode map holds no other row: each is the row of a command. -/
theorem exists_rowOf_of_mem {row : OpcodeRow} (h : row ∈ opcodeTable) : ∃ i, row = rowOf i := by
  have hall : opcodeTable = [.gfadd 0 0 0, .gfsub 0 0 0, .gfmul 0 0 0, .gfdiv 0 0 0, .gfinv 0 0, .gfpow 0 0 0,
    .gfzero 0, .gfone 0, .gfpowi 0 0 0, .config 0 0, .peval 0 0, .vand, .minv, .encode, .decode].map rowOf := by decide
  rw [hall] at h
  obtain ⟨i, -, hi⟩ := List.mem_map.1 h
  exact ⟨i, hi.symm⟩

/-- The decoder accepts what the row of a command matches: it tests the same opcode and the same `zero` field. -/
theorem decode_of_rowMatches {i : Instr} {w : Word} (h : rowMatches (rowOf i) w = true) : ∃ j, decode w = .ok j := by
  cases i
  all_goals
    obtain ⟨hop, hz⟩ := (rowMatches_zeroFieldRow (by decide) (by decide)).1 h
    simp [decode, hop, requireZero, hz]

/-- The row of a command matches its word. -/
theorem rowMatches_rowOf_encode (i : Instr) : rowMatches (rowOf i) (encode i) = true := by
  cases i
  all_goals refine (rowMatches_zeroFieldRow (by decide) (by decide)).2 ?_
  case gfadd | gfsub | gfmul | gfdiv | gfpow => simp [encode, formatR_fields]
  case gfinv | peval => simp [encode, formatU_fields]
  case gfzero | gfone => simp [encode, formatD_fields]
  case gfpowi => simp [encode, formatI_fields]
  case config n12 k12 => exact ⟨(formatC_fields (by decide) n12 k12).1, Nat.mod_one _⟩
  case vand | minv | encode | decode => simp [encode, formatZ_fields]

/-- Settles O3. A legal word is the word of the command it reads, which that command's row matches; and a word that some
row matches is legal. -/
theorem decoderAgreesWithMatchAndMask : Obligations.DecoderAgreesWithMatchAndMask := by
  intro w
  have hlegal : ∀ i, decode w = .ok i → rowMatches (rowOf i) w = true := fun i hi =>
    encode_of_decode hi ▸ rowMatches_rowOf_encode i
  refine ⟨⟨?_, fun hnone => ?_⟩, fun i hi => ⟨_, rowOf_mem_opcodeTable i, rowOf_mnemonic i, hlegal i hi⟩⟩
  · rintro ⟨e, he⟩ row hrow
    obtain ⟨i, rfl⟩ := exists_rowOf_of_mem hrow
    refine Bool.eq_false_iff.2 fun hm => ?_
    obtain ⟨j, hj⟩ := decode_of_rowMatches hm
    cases he.symm.trans hj
  · cases hw : decode w with
    | error e => exact ⟨e, rfl⟩
    | ok i => exact absurd (hlegal i hw) (Bool.eq_false_iff.1 (hnone _ (rowOf_mem_opcodeTable i)))

end Sys2Proof

namespace Sys2Proof.Machine

/-! ### An illegal word at the port (R101, R237) -/

theorem issue_of_illegal {s : State} {w : Word} {why : DecodeError} (hs : s.err = none) (hw : decode w = .error why) :
    issue w s = .next (s.raise .illegalCommand w) := by
  simp [issue, State.faulted, hs, hw]

/-- Settles O6: the write to `CMD` issues its data, and the fault sequence writes `ERR` and `EINFO` only. -/
theorem illegalWordRaises : Obligations.IllegalWordRaises := by
  intro s w rest why hp hs hw
  calc step s = issue w (answered s rest .ok) := by rw [step_of_pending hp, perform_write_zero]
    _ = .next ((answered s rest .ok).raise .illegalCommand w) := issue_of_illegal hs hw

end Sys2Proof.Machine
end

section
/-! PROOFS. Bit vectors as polynomials over GF(2) (40_field.md R120): the carry-less product is the product of the
polynomials, and the reduction keeps the remainder on division by `POLY(t)` (R125). -/

namespace Sys2Proof.Machine

open Polynomial

/-! ### Bits as elements of GF(2) -/

/-- A bit as an element of GF(2). -/
def bitVal (b : Bool) : ZMod 2 := b.toNat

@[simp] theorem bitVal_true : bitVal true = 1 := rfl

@[simp] theorem bitVal_false : bitVal false = 0 := rfl

theorem bitVal_injective : Function.Injective bitVal := by decide

theorem bitVal_xor (a b : Bool) : bitVal (a ^^ b) = bitVal a + bitVal b := by
  cases a <;> cases b <;> rfl

theorem bitVal_and (a b : Bool) : bitVal (a && b) = bitVal a * bitVal b := by
  cases a <;> cases b <;> rfl

theorem bitVal_surjective (x : ZMod 2) : ∃ b, bitVal b = x := by
  revert x
  decide

/-- The parity of a number is the number in GF(2). -/
theorem bitVal_parity (k : Nat) : bitVal (k % 2 == 1) = k := by
  rw [← ZMod.natCast_mod k 2]
  rcases Nat.mod_two_eq_zero_or_one k with h | h <;> rw [h] <;> rfl

/-- A count in GF(2) is the sum of the bits counted. -/
theorem countP_range_eq_sum (f : Nat → Bool) (n : Nat) :
    ((List.range n).countP f : ZMod 2) = ∑ i ∈ Finset.range n, bitVal (f i) := by
  induction n with
  | zero => rfl
  | succ n ih =>
    rw [List.range_succ, List.countP_append, Nat.cast_add, ih, Finset.sum_range_succ]
    cases h : f n <;> simp [h]

/-! ### The polynomial of a bit vector (R120) -/

section PolyOf

variable {v w : Nat}

/-- The polynomial a bit vector stands for: bit i is the coefficient of t^i (R120). -/
noncomputable def polyOf (a : BitVec w) : (ZMod 2)[X] := ∑ i ∈ Finset.range w, monomial i (bitVal (a.getLsbD i))

theorem polyOf_eq_sum (a : BitVec w) : polyOf a = ∑ i ∈ Finset.range w, monomial i (bitVal (a.getLsbD i)) := rfl

@[simp] theorem coeff_polyOf (a : BitVec w) (n : Nat) : (polyOf a).coeff n = bitVal (a.getLsbD n) := by
  simp only [polyOf_eq_sum, finsetSum_coeff, coeff_monomial, Finset.sum_ite_eq', Finset.mem_range,
    ite_eq_left_iff, not_lt]
  intro h
  rw [BitVec.getLsbD_of_ge a n h, bitVal_false]

theorem polyOf_eq_iff {a : BitVec v} {b : BitVec w} : polyOf a = polyOf b ↔ ∀ n, a.getLsbD n = b.getLsbD n := by
  simp only [Polynomial.ext_iff, coeff_polyOf, bitVal_injective.eq_iff]

theorem polyOf_injective : Function.Injective (polyOf (w := w)) := fun _ _ h =>
  BitVec.eq_of_getLsbD_eq fun i _ => polyOf_eq_iff.1 h i

@[simp] theorem polyOf_zero : polyOf 0#w = 0 := by
  ext n
  simp

@[simp] theorem polyOf_one : polyOf 1#8 = 1 := by
  ext n
  rw [coeff_polyOf, coeff_one, BitVec.getLsbD_one]
  by_cases h : n = 0
  · simp [h]
  · simp [h]

theorem polyOf_xor (a b : BitVec w) : polyOf (a ^^^ b) = polyOf a + polyOf b := by
  ext n
  simp [bitVal_xor]

/-- A change of width that loses no bit keeps the polynomial. -/
theorem polyOf_setWidth {a : BitVec v} (h : a.toNat < 2 ^ w) : polyOf (a.setWidth w) = polyOf a := by
  refine polyOf_eq_iff.2 fun n => ?_
  rw [BitVec.getLsbD_setWidth]
  rcases lt_or_ge n w with hn | hn
  · simp [hn]
  · have hlt : a.toNat < 2 ^ n := h.trans_le (Nat.pow_le_pow_right (by decide) hn)
    simp [BitVec.getLsbD, Nat.testBit_lt_two_pow hlt]

/-- A shift by i places that loses no bit multiplies by t^i. -/
theorem polyOf_shiftLeft (a : BitVec v) {i : Nat} (h : v + i ≤ w) :
    polyOf (a.setWidth w <<< i) = polyOf a * X ^ i := by
  ext n
  rw [coeff_polyOf, coeff_mul_X_pow', coeff_polyOf, BitVec.getLsbD_shiftLeft, BitVec.getLsbD_setWidth]
  rcases lt_or_ge n i with hn | hn
  · simp [hn]
  · rcases lt_or_ge (n - i) v with hv | hv
    · simp [hn, hn.not_gt, show n < w by omega, show n - i < w by omega]
    · simp [hn, BitVec.getLsbD_of_ge a _ hv]

theorem degree_polyOf_lt_iff {a : BitVec v} : (polyOf a).degree < w ↔ a.toNat < 2 ^ w := by
  simp only [degree_lt_iff_coeff_zero, coeff_polyOf, ← bitVal_false, bitVal_injective.eq_iff]
  exact ⟨Nat.lt_pow_two_of_testBit _, fun h n hn =>
    Nat.testBit_lt_two_pow (h.trans_le (Nat.pow_le_pow_right (by decide) hn))⟩

theorem degree_polyOf_lt (a : BitVec w) : (polyOf a).degree < w := degree_polyOf_lt_iff.2 a.isLt

/-- Every polynomial of degree below w is that of a bit vector of width w. -/
theorem exists_polyOf {f : (ZMod 2)[X]} (h : f.natDegree < w) : ∃ a : BitVec w, polyOf a = f := by
  choose bit hbit using fun n => bitVal_surjective (f.coeff n)
  refine ⟨BitVec.ofFnLE fun i => bit i, ?_⟩
  ext n
  rw [coeff_polyOf, BitVec.getLsbD_ofFnLE]
  split
  · exact hbit n
  · next hn => exact (coeff_eq_zero_of_natDegree_lt (h.trans_le (not_lt.1 hn))).symm

theorem natDegree_polyOf_le (a : BitVec (w + 1)) : (polyOf a).natDegree ≤ w :=
  natDegree_le_iff_coeff_eq_zero.2 fun n hn => by rw [coeff_polyOf, BitVec.getLsbD_of_ge a n hn, bitVal_false]

/-- The degree is the index of the top bit. -/
theorem natDegree_polyOf (a : BitVec w) : (polyOf a).natDegree = a.toNat.log2 := by
  rcases eq_or_ne a 0#w with rfl | ha
  · rw [polyOf_zero, natDegree_zero]
    rfl
  · have hpoly : polyOf a ≠ 0 := fun h => ha (polyOf_injective (h.trans polyOf_zero.symm))
    have hnat : a.toNat ≠ 0 := fun h => ha (BitVec.eq_of_toNat_eq h)
    refine eq_of_forall_gt_iff fun k => ?_
    rw [natDegree_lt_iff_degree_lt hpoly, degree_polyOf_lt_iff, Nat.log2_lt hnat]

/-- `productBit` counts the coefficients of the product (R120). -/
theorem coeff_polyOf_mul (a : BitVec v) (b : BitVec w) (n : Nat) :
    (polyOf a * polyOf b).coeff n = bitVal (productBit a b n) := by
  rw [productBit, bitVal_parity, countP_range_eq_sum, coeff_mul, Finset.Nat.sum_antidiagonal_eq_sum_range_succ_mk]
  simp only [coeff_polyOf, bitVal_and]

end PolyOf

/-! ### The two loops of `mul` (R125) -/

/-- A loop that adds terms gives the sum of their polynomials. -/
theorem polyOf_foldl_xor {w : Nat} (f : Nat → BitVec w) (n : Nat) :
    polyOf ((List.range n).foldl (fun p i => p ^^^ f i) 0#w) = ∑ i ∈ Finset.range n, polyOf (f i) := by
  induction n with
  | zero => simp
  | succ n ih => simp [List.range_succ, Finset.sum_range_succ, polyOf_xor, ih]

theorem polyOf_clTerm (a b : Byte) {i : Nat} (hi : i < 8) :
    polyOf (clTerm a b i) = polyOf a * monomial i (bitVal (b.getLsbD i)) := by
  unfold clTerm
  split
  · next hb => rw [hb, bitVal_true, monomial_one_right_eq_X_pow, polyOf_shiftLeft a (by omega)]
  · next hb =>
    rw [eq_false_of_ne_true hb, bitVal_false, monomial_zero_right, mul_zero]
    exact polyOf_zero

/-- The first loop multiplies the polynomials. -/
theorem polyOf_clMul (a b : Byte) : polyOf (clMul a b) = polyOf a * polyOf b := by
  rw [clMul_eq_foldl, BitVec.ofNat_eq_ofNat, polyOf_foldl_xor, polyOf_eq_sum b, Finset.mul_sum]
  exact Finset.sum_congr rfl fun i hi => polyOf_clTerm a b (Finset.mem_range.1 hi)

/-- One step of the second loop: bit `8 + k` is cleared by adding `POLY << k`. -/
def reduceStep (p : Poly) (x : BitVec 15) (k : Nat) : BitVec 15 :=
  if x.getLsbD (8 + k) then x ^^^ (p.setWidth 15 <<< k) else x

/-- The second loop with its steps counted by the shift of `POLY`. -/
theorem gfReduce_eq_foldl (p : Poly) (x : BitVec 15) :
    gfReduce p x = (List.range 7).reverse.foldl (reduceStep p) x := rfl

section Reduce

variable {p : Poly} {x : BitVec 15} {k : Nat}

theorem reduceStep_of_set (h : x.getLsbD (8 + k) = true) : reduceStep p x k = x ^^^ (p.setWidth 15 <<< k) := if_pos h

theorem reduceStep_of_clear (h : ¬ x.getLsbD (8 + k) = true) : reduceStep p x k = x := if_neg h

/-- A step adds a multiple of `POLY(t)`. -/
theorem dvd_reduceStep_sub (hk : k < 7) : polyOf p ∣ polyOf (reduceStep p x k) - polyOf x := by
  by_cases h : x.getLsbD (8 + k) = true
  · rw [reduceStep_of_set h, polyOf_xor, polyOf_shiftLeft p (by omega), add_sub_cancel_left]
    exact dvd_mul_right _ _
  · rw [reduceStep_of_clear h, sub_self]
    exact dvd_zero _

theorem getLsbD_reduceStep (n : Nat) : (reduceStep p x k).getLsbD n =
    (x.getLsbD n ^^ (x.getLsbD (8 + k) && (p.setWidth 15 <<< k).getLsbD n)) := by
  by_cases h : x.getLsbD (8 + k) = true
  · rw [reduceStep_of_set h, BitVec.getLsbD_xor, h, Bool.true_and]
  · rw [reduceStep_of_clear h, eq_false_of_ne_true h, Bool.false_and, Bool.xor_false]

/-- The top bit of `POLY << k` is bit `8 + k`. -/
theorem getLsbD_shiftLeft_poly (hp : p.getLsbD 8 = true) (hk : k < 7) {n : Nat} (hn : 8 + k ≤ n) :
    (p.setWidth 15 <<< k).getLsbD n = decide (n = 8 + k) := by
  rw [BitVec.getLsbD_shiftLeft, BitVec.getLsbD_setWidth]
  rcases hn.eq_or_lt with rfl | hn
  · simp [hp, show 8 + k < 15 by omega]
  · simp [hn.ne', BitVec.getLsbD_of_ge p (n - k) (by omega)]

/-- A step on a polynomial of degree at most `8 + k` leaves one of degree below `8 + k`. -/
theorem reduceStep_lt (hp : p.getLsbD 8 = true) (hk : k < 7) (hx : x.toNat < 2 ^ (8 + (k + 1))) :
    (reduceStep p x k).toNat < 2 ^ (8 + k) := by
  refine Nat.lt_pow_two_of_testBit _ fun n hn => ?_
  change (reduceStep p x k).getLsbD n = false
  rw [getLsbD_reduceStep, getLsbD_shiftLeft_poly hp hk hn]
  rcases hn.eq_or_lt with rfl | hn
  · simp
  · have hbit : x.getLsbD n = false := Nat.testBit_lt_two_pow (hx.trans_le (Nat.pow_le_pow_right (by decide) hn))
    simp [hbit, hn.ne']

/-- The second loop keeps the class modulo `POLY(t)`. -/
theorem dvd_foldl_reduceStep_sub {l : List Nat} (hl : ∀ k ∈ l, k < 7) :
    polyOf p ∣ polyOf (l.foldl (reduceStep p) x) - polyOf x := by
  induction l generalizing x with
  | nil => simp
  | cons k l ih =>
    have hstep := dvd_reduceStep_sub (p := p) (x := x) (hl k List.mem_cons_self)
    have hrest := ih (x := reduceStep p x k) fun j hj => hl j (List.mem_cons_of_mem k hj)
    simpa using dvd_add hrest hstep

theorem dvd_gfReduce_sub (p : Poly) (x : BitVec 15) : polyOf p ∣ polyOf (gfReduce p x) - polyOf x := by
  rw [gfReduce_eq_foldl]
  exact dvd_foldl_reduceStep_sub (by decide)

/-- The steps from shift `k - 1` down to 0 end below degree 8. -/
theorem foldl_reduceStep_lt (hp : p.getLsbD 8 = true) (hk : k ≤ 7) (hx : x.toNat < 2 ^ (8 + k)) :
    ((List.range k).reverse.foldl (reduceStep p) x).toNat < 2 ^ 8 := by
  induction k generalizing x with
  | zero => exact hx
  | succ k ih =>
    rw [List.range_succ, List.reverse_append, List.reverse_singleton, List.singleton_append, List.foldl_cons]
    exact ih (by omega) (reduceStep_lt hp hk hx)

end Reduce

section Remainder

variable {p : Poly} (hp : p.getLsbD 8 = true)
include hp

theorem gfReduce_lt (x : BitVec 15) : (gfReduce p x).toNat < 2 ^ 8 := foldl_reduceStep_lt hp le_rfl x.isLt

theorem natDegree_poly : (polyOf p).natDegree = 8 :=
  natDegree_eq_of_le_of_coeff_ne_zero (natDegree_polyOf_le p) (by rw [coeff_polyOf, hp]; decide)

theorem monic_poly : (polyOf p).Monic :=
  monic_of_natDegree_le_of_coeff_eq_one 8 (natDegree_polyOf_le p) (by rw [coeff_polyOf, hp, bitVal_true])

theorem degree_poly : (polyOf p).degree = (8 : Nat) :=
  (degree_eq_iff_natDegree_eq (monic_poly hp).ne_zero).2 (natDegree_poly hp)

/-- `mul(a, b)` is the remainder of a(t)·b(t) on division by `POLY(t)` (R125). -/
theorem polyOf_gfMul (a b : Byte) : polyOf (gfMul p a b) = polyOf a * polyOf b %ₘ polyOf p := by
  have hlt := gfReduce_lt hp (clMul a b)
  obtain ⟨q, hq⟩ : polyOf p ∣ polyOf (gfReduce p (clMul a b)) - polyOf (clMul a b) :=
    dvd_gfReduce_sub p (clMul a b)
  have hdivision : polyOf (gfReduce p (clMul a b)) + polyOf p * -q = polyOf a * polyOf b := by
    rw [← polyOf_clMul, mul_neg, ← hq, ← sub_eq_add_neg, sub_sub_cancel]
  have hdegree : (polyOf (gfReduce p (clMul a b))).degree < (polyOf p).degree := by
    rw [degree_poly hp]
    exact degree_polyOf_lt_iff.2 hlt
  rw [gfMul, polyOf_setWidth hlt]
  exact (div_modByMonic_unique (-q) _ (monic_poly hp) ⟨hdivision, hdegree⟩).2.symm

/-- The quotient has degree at most 14 - 8. -/
theorem natDegree_product_divByMonic_lt (a b : Byte) : (polyOf a * polyOf b /ₘ polyOf p).natDegree < 7 := by
  have hprod : (polyOf a * polyOf b).natDegree ≤ 14 := polyOf_clMul a b ▸ natDegree_polyOf_le (clMul a b)
  rw [natDegree_divByMonic _ (monic_poly hp), natDegree_poly hp]
  omega

end Remainder

/-- Settles O28: the polynomial division of the product by `POLY(t)`, read coefficient by coefficient. -/
theorem mulIsPolynomialRemainder : Obligations.MulIsPolynomialRemainder := by
  intro p a b hp
  obtain ⟨q, hq⟩ := exists_polyOf (natDegree_product_divByMonic_lt hp a b)
  refine ⟨gfReduce_lt hp _, q, fun n => bitVal_injective ?_⟩
  have hdivision : polyOf a * polyOf b = polyOf q * polyOf p + polyOf (gfMul p a b) := by
    rw [hq, polyOf_gfMul hp, mul_comm _ (polyOf p), add_comm, modByMonic_add_div]
  calc bitVal (productBit a b n) = (polyOf a * polyOf b).coeff n := (coeff_polyOf_mul a b n).symm
    _ = bitVal (productBit q p n ^^ (gfMul p a b).getLsbD n) := by
      rw [hdivision, coeff_add, coeff_polyOf_mul, coeff_polyOf, bitVal_xor]

end Sys2Proof.Machine
end

section
/-! PROOFS. The legal values of `POLY` are irreducible (40_field.md R122), and modulo an irreducible `POLY(t)` the bytes
are the field of 256 elements: the laws of R127 to R131 and R143 are read off there. -/

namespace Sys2Proof.Machine

open Polynomial

/-! ### The legal values of `POLY` (R122) -/

theorem legalPoly_bits {p : Poly} (hp : p ∈ Config.legalPolys) : p.getLsbD 8 = true ∧ p.getLsbD 0 = true := by
  revert p
  decide

theorem legalPoly_bit8 {p : Poly} (hp : p ∈ Config.legalPolys) : p.getLsbD 8 = true := (legalPoly_bits hp).1

/-- Trial multiplication (R122): no legal value is a product of a factor of degree 1 to 4 and its cofactor of degree 7
to 4. As bit 0 of the product is 1, only factors with bit 0 set come into question. -/
theorem clMul_not_legal : ∀ g : BitVec 5, 0 < g.toNat.log2 → g.getLsbD 0 = true →
    ∀ f : Byte, f.toNat.log2 + g.toNat.log2 = 8 → f.getLsbD 0 = true →
      clMul f (g.setWidth 8) ∉ Config.legalPolys.map (BitVec.setWidth 15) := by
  decide

/-- The only unit is the constant 1. -/
theorem eq_one_of_isUnit_polyOf {f : Byte} (h : IsUnit (polyOf f)) : f = 1 := by
  obtain ⟨r, hr, hf⟩ := isUnit_iff.1 h
  refine polyOf_injective ?_
  rw [← hf, isUnit_iff_eq_one.1 hr, map_one]
  exact polyOf_one.symm

theorem irreducible_poly {p : Poly} (hp : p ∈ Config.legalPolys) : Irreducible (polyOf p) := by
  obtain ⟨h8, h0⟩ := legalPoly_bits hp
  have hnat := natDegree_poly h8
  refine (monic_poly h8).irreducible_iff_natDegree'.2 ⟨fun h => ?_, fun f g hf hg hfg hmem => ?_⟩
  · rw [h, natDegree_one] at hnat
    exact absurd hnat (by decide)
  · obtain ⟨hg0, hg4⟩ := Finset.mem_Ioc.1 hmem
    have hsum : f.natDegree + g.natDegree = 8 := by rw [← hf.natDegree_mul hg, hfg, hnat]
    obtain ⟨a, rfl⟩ := exists_polyOf (w := 8) (f := f) (by omega)
    obtain ⟨b, rfl⟩ := exists_polyOf (w := 5) (f := g) (by omega)
    have hprod : clMul a (b.setWidth 8) = p.setWidth 15 := by
      refine polyOf_injective ?_
      rw [polyOf_clMul, polyOf_setWidth (by omega), polyOf_setWidth (by omega), hfg]
    have hbits : (a.getLsbD 0 && b.getLsbD 0) = true := by
      refine bitVal_injective ?_
      rw [bitVal_and, ← coeff_polyOf, ← coeff_polyOf, ← mul_coeff_zero, hfg, coeff_polyOf, h0]
    obtain ⟨ha, hb⟩ := Bool.and_eq_true_iff.1 hbits
    rw [natDegree_polyOf] at hg0
    rw [natDegree_polyOf, natDegree_polyOf] at hsum
    exact clMul_not_legal b hg0 hb a hsum ha (hprod ▸ List.mem_map_of_mem hp)

/-- Settles O33: a factorisation into bytes is one of polynomials, and so one factor is the unit 1. -/
theorem legalPolysAreIrreducible : Obligations.LegalPolysAreIrreducible := by
  refine ⟨by decide, rfl, fun p hp => ⟨legalPoly_bit8 hp, (legalPoly_bits hp).2, fun f g hf hg hfg => ?_⟩⟩
  have hprod : polyOf p = polyOf f * polyOf g := by
    ext n
    rw [coeff_polyOf_mul, hfg, coeff_polyOf]
  rcases (irreducible_poly hp).isUnit_or_isUnit hprod with h | h
  · exact absurd (eq_one_of_isUnit_polyOf h ▸ hf) (by decide)
  · exact absurd (eq_one_of_isUnit_polyOf h ▸ hg) (by decide)

/-! ### The bytes as residue classes modulo `POLY(t)` -/

/-- The class of a byte modulo `POLY(t)`. It adds and multiplies as the bytes do, and for a `POLY` of degree 8 every class
is that of exactly one byte. -/
noncomputable def gfValue (p : Poly) (a : Byte) : AdjoinRoot (polyOf p) := AdjoinRoot.mk (polyOf p) (polyOf a)

theorem gfValue_eq_mk (p : Poly) (a : Byte) : gfValue p a = AdjoinRoot.mk (polyOf p) (polyOf a) := rfl

@[simp] theorem gfValue_gfZero (p : Poly) : gfValue p gfZero = 0 := by
  rw [gfValue_eq_mk, gfZero, BitVec.ofNat_eq_ofNat, polyOf_zero, map_zero]

@[simp] theorem gfValue_gfOne (p : Poly) : gfValue p gfOne = 1 := by
  rw [gfValue_eq_mk, gfOne, BitVec.ofNat_eq_ofNat, polyOf_one, map_one]

@[simp] theorem gfValue_gfAdd (p : Poly) (a b : Byte) : gfValue p (gfAdd a b) = gfValue p a + gfValue p b := by
  simp only [gfValue_eq_mk, gfAdd, polyOf_xor, map_add]

section Quotient

variable {p : Poly} (hp : p.getLsbD 8 = true)
include hp

theorem gfValue_gfMul (a b : Byte) : gfValue p (gfMul p a b) = gfValue p a * gfValue p b := by
  simp only [gfValue_eq_mk, polyOf_gfMul hp, ← map_mul]
  exact AdjoinRoot.mk_eq_mk.2 (dvd_modByMonic_sub _ _)

theorem gfValue_gfPow (a : Byte) (e : Nat) : gfValue p (gfPow p a e) = gfValue p a ^ e := by
  induction e with
  | zero => simp [gfPow]
  | succ e ih => rw [gfPow, gfValue_gfMul hp, ih, pow_succ]

theorem gfValue_injective : Function.Injective (gfValue p) := by
  intro a b h
  have hdvd : polyOf p ∣ polyOf a - polyOf b := AdjoinRoot.mk_eq_mk.1 h
  have hdegree : (polyOf a - polyOf b).degree < (polyOf p).degree := by
    rw [degree_poly hp]
    exact (degree_sub_le _ _).trans_lt (max_lt (degree_polyOf_lt a) (degree_polyOf_lt b))
  exact polyOf_injective (sub_eq_zero.1 (eq_zero_of_dvd_of_degree_lt hdvd hdegree))

theorem gfValue_surjective : Function.Surjective (gfValue p) := by
  intro z
  obtain ⟨f, rfl⟩ := AdjoinRoot.mk_surjective z
  have hne : polyOf p ≠ 1 := fun h => by simpa [h] using natDegree_poly hp
  have hlt := natDegree_modByMonic_lt f (monic_poly hp) hne
  rw [natDegree_poly hp] at hlt
  obtain ⟨a, ha⟩ := exists_polyOf hlt
  refine ⟨a, ?_⟩
  rw [gfValue_eq_mk, ha]
  exact AdjoinRoot.mk_eq_mk.2 (dvd_modByMonic_sub _ _)

/-! ### The ring laws, for every `POLY` of degree 8 -/

theorem gfMul_comm (a b : Byte) : gfMul p a b = gfMul p b a :=
  gfValue_injective hp (by rw [gfValue_gfMul hp, gfValue_gfMul hp, mul_comm])

theorem gfMul_assoc (a b c : Byte) : gfMul p (gfMul p a b) c = gfMul p a (gfMul p b c) :=
  gfValue_injective hp (by simp only [gfValue_gfMul hp, mul_assoc])

theorem gfMul_gfOne (a : Byte) : gfMul p a gfOne = a :=
  gfValue_injective hp (by rw [gfValue_gfMul hp, gfValue_gfOne, mul_one])

theorem gfOne_gfMul (a : Byte) : gfMul p gfOne a = a := by rw [gfMul_comm hp, gfMul_gfOne hp]

theorem gfMul_gfZero (a : Byte) : gfMul p a gfZero = gfZero :=
  gfValue_injective hp (by rw [gfValue_gfMul hp, gfValue_gfZero, mul_zero])

theorem gfZero_gfMul (a : Byte) : gfMul p gfZero a = gfZero := by rw [gfMul_comm hp, gfMul_gfZero hp]

theorem gfPow_add (a : Byte) (e f : Nat) : gfPow p a (e + f) = gfMul p (gfPow p a e) (gfPow p a f) :=
  gfValue_injective hp (by simp only [gfValue_gfMul hp, gfValue_gfPow hp, pow_add])

theorem gfPow_one (a : Byte) : gfPow p a 1 = a := gfOne_gfMul hp a

theorem gfPow_gfZero {e : Nat} (he : 1 ≤ e) : gfPow p gfZero e = gfZero :=
  gfValue_injective hp (by rw [gfValue_gfPow hp, gfValue_gfZero, zero_pow (by omega)])

theorem gfPow_gfOne (e : Nat) : gfPow p gfOne e = gfOne :=
  gfValue_injective hp (by rw [gfValue_gfPow hp, gfValue_gfOne, one_pow])

/-! ### The inverse (R127, R128) -/

theorem gfMul_right_unique {a b c : Byte} (hb : gfMul p a b = gfOne) (hc : gfMul p a c = gfOne) : b = c := by
  calc b = gfMul p b (gfMul p a c) := by rw [hc, gfMul_gfOne hp]
    _ = gfMul p (gfMul p a b) c := by rw [← gfMul_assoc hp, gfMul_comm hp b a]
    _ = c := by rw [hb, gfOne_gfMul hp]

/-- The search for the inverse finds the byte whose product with a is 1 (R127, R128), and nothing if there is none. -/
theorem gfInverse_eq_some {a b : Byte} : gfInverse p a = some b ↔ gfMul p a b = gfOne := by
  have hsound : ∀ c, gfInverse p a = some c → gfMul p a c = gfOne := fun c hc => by
    unfold gfInverse at hc
    split at hc
    · cases hc
    · simpa using List.find?_some hc
  refine ⟨hsound b, fun hb => ?_⟩
  have ha : a ≠ gfZero := by
    rintro rfl
    rw [gfZero_gfMul hp] at hb
    exact absurd hb (by decide)
  have hmem : b ∈ (List.range 256).map (BitVec.ofNat 8) :=
    List.mem_map.2 ⟨b.toNat, List.mem_range.2 b.isLt, by simp⟩
  cases hc : gfInverse p a with
  | none =>
    rw [gfInverse, if_neg ha, List.find?_eq_none] at hc
    exact absurd (decide_eq_true hb) (hc b hmem)
  | some c => rw [gfMul_right_unique hp (hsound c hc) hb]

end Quotient

/-! ### The field laws, for the legal values of `POLY` -/

section Legal

variable {p : Poly} (hp : p ∈ Config.legalPolys)
include hp

theorem gfMul_eq_gfZero {a b : Byte} (h : gfMul p a b = gfZero) : a = gfZero ∨ b = gfZero := by
  have h8 := legalPoly_bit8 hp
  have : Fact (Irreducible (polyOf p)) := ⟨irreducible_poly hp⟩
  have hval : gfValue p a * gfValue p b = 0 := by rw [← gfValue_gfMul h8, h, gfValue_gfZero]
  refine (mul_eq_zero.1 hval).imp ?_ ?_
  all_goals exact fun hz => gfValue_injective h8 (hz.trans (gfValue_gfZero p).symm)

/-- The nonzero classes are a group of order 255 (R128). -/
theorem gfPow_255 {a : Byte} (ha : a ≠ gfZero) : gfPow p a 255 = gfOne := by
  have h8 := legalPoly_bit8 hp
  have hinj := gfValue_injective h8
  have : Fact (Irreducible (polyOf p)) := ⟨irreducible_poly hp⟩
  have hcard : Nat.card (AdjoinRoot (polyOf p)) = 256 := by
    rw [← Nat.card_eq_of_bijective _ ⟨hinj, gfValue_surjective h8⟩]
    exact Nat.card_eq_of_equiv_fin BitVec.equivFin.toEquiv
  have : Finite (AdjoinRoot (polyOf p)) := Finite.of_surjective _ (gfValue_surjective h8)
  have := Fintype.ofFinite (AdjoinRoot (polyOf p))
  have hval : gfValue p a ≠ 0 := fun h => ha (hinj (h.trans (gfValue_gfZero p).symm))
  refine hinj ?_
  calc gfValue p (gfPow p a 255) = gfValue p a ^ (Fintype.card (AdjoinRoot (polyOf p)) - 1) := by
        rw [gfValue_gfPow h8, ← Nat.card_eq_fintype_card, hcard]
    _ = gfValue p gfOne := by rw [FiniteField.pow_card_sub_one_eq_one _ hval, gfValue_gfOne]

/-- The inverse in its power form (R128). -/
theorem gfMul_gfPow_254 {a : Byte} (ha : a ≠ gfZero) : gfMul p a (gfPow p a 254) = gfOne := by
  rw [gfMul_comm (legalPoly_bit8 hp), ← gfPow_255 hp ha]
  rfl

theorem gfInverse_eq_gfPow {a : Byte} (ha : a ≠ gfZero) : gfInverse p a = some (gfPow p a 254) :=
  (gfInverse_eq_some (legalPoly_bit8 hp)).2 (gfMul_gfPow_254 hp ha)

end Legal

/-- Zero has no inverse (R127). -/
theorem gfInverse_gfZero (p : Poly) : gfInverse p gfZero = none := if_pos rfl

/-- Division is multiplication by the inverse (R131). -/
theorem gfDiv_of_gfInverse {p : Poly} {b i : Byte} (h : gfInverse p b = some i) (a : Byte) :
    gfDiv p a b = some (gfMul p a i) := by
  rw [gfDiv, h, Option.map_some]

theorem gfDiv_gfZero (p : Poly) (a : Byte) : gfDiv p a gfZero = none := by
  rw [gfDiv, gfInverse_gfZero, Option.map_none]

/-! ### The statements -/

/-- Settles O29. -/
theorem fieldLaws : Obligations.FieldLaws := by
  intro p hp a b c
  have h8 := legalPoly_bit8 hp
  exact ⟨BitVec.xor_self, gfMul_gfOne h8 a, gfMul_gfZero h8 a, gfMul_assoc h8 a b c,
    fun ha => ⟨_, gfInverse_eq_gfPow hp ha, gfMul_gfPow_254 hp ha⟩,
    BitVec.xor_comm a b, BitVec.xor_assoc a b c, gfMul_comm h8 a b, gfMul_xor_right p a b c, BitVec.xor_zero, rfl,
    gfMul_eq_gfZero hp, gfPow_add h8 a⟩

/-- Settles O30: what the search finds is the only byte whose product with a is 1. -/
theorem inverseIsUnique : Obligations.InverseIsUnique := by
  intro p hp
  refine ⟨gfInverse_gfZero p, fun a ha => ⟨gfInverse_eq_gfPow hp ha, fun b => ?_⟩⟩
  refine (gfInverse_eq_some (legalPoly_bit8 hp)).symm.trans ?_
  rw [gfInverse_eq_gfPow hp ha, Option.some_inj]
  exact eq_comm

/-- Settles O31. -/
theorem powCornerCases : Obligations.PowCornerCases := by
  intro p hp a e
  have h8 := legalPoly_bit8 hp
  exact ⟨gfPow_one h8 a, rfl, gfPow_gfZero h8, gfPow_gfOne h8 e,
    fun ha => ⟨gfPow_255 hp ha, gfInverse_eq_gfPow hp ha⟩⟩

/-- Settles O32: each quotient is the product with the inverse of the divisor. -/
theorem divisionLaws : Obligations.DivisionLaws := by
  intro p hp a b
  have h8 := legalPoly_bit8 hp
  refine ⟨gfDiv_gfZero p a, fun hb => ?_, ?_⟩
  · have hinv := gfInverse_eq_gfPow hp hb
    have hmul := gfMul_gfPow_254 hp hb
    refine ⟨_, hinv, gfDiv_of_gfInverse hinv a, ?_, ?_, ?_⟩
    · exact (gfDiv_of_gfInverse hinv gfZero).trans (congrArg some (gfZero_gfMul h8 _))
    · rw [gfDiv_of_gfInverse hinv, gfMul_assoc h8, hmul, gfMul_gfOne h8]
    · exact (gfDiv_of_gfInverse hinv b).trans (congrArg some hmul)
  · have hone : gfInverse p gfOne = some gfOne := (gfInverse_eq_some h8).2 (gfMul_gfOne h8 gfOne)
    exact (gfDiv_of_gfInverse hone a).trans (congrArg some (gfMul_gfOne h8 a))

end Sys2Proof.Machine
end

section
/-! PROOFS. The field commands (40_field.md R133 to R141): what each writes, when it raises, and its command word. -/

namespace Sys2Proof.Machine

section Commands

variable {i : Instr} {s : State}

/-- A command whose meaning is one register write completes by it and changes nothing else (R132). -/
theorem writesElement_of_exec {rd : Reg} {v : Byte} (h : exec i s = .next (s.setE rd v)) : WritesElement i rd v s :=
  ⟨_, h, State.getE_setE_self s rd v, fun r hr => by rw [State.getE_setE, if_neg hr], State.setE_frame s rd v⟩

variable {rd : Reg} {v : Option Byte} (h : exec i s = .next (writeOrDomainError s rd v i))
include h

/-- A partial operation that is defined is written to the destination. -/
theorem writesElement_of_some {b : Byte} (hv : v = some b) : WritesElement i rd b s := by
  subst hv
  exact writesElement_of_exec h

/-- A partial operation that is not defined raises DomainError (R136, R137). -/
theorem raises_of_none (hv : v = none) : Raises i .domain s := by
  subst hv
  exact h

end Commands

/-! ### The command words (R91 to R94) -/

section Words

variable {i : Instr} {op : Nat} (hop : op < 256)
include hop

theorem hasWord_formatR {rd ra rb : Reg} (h : encode i = formatR op rd ra rb) :
    HasWord i (op * 2 ^ 24 + rd.val * 2 ^ 20 + ra.val * 2 ^ 16 + rb.val * 2 ^ 12) := by
  rw [HasWord, h, formatR, commandWord_toNat hop (formatR_fits rd ra rb)]
  omega

theorem hasWord_formatU {rd ra : Reg} (h : encode i = formatU op rd ra) :
    HasWord i (op * 2 ^ 24 + rd.val * 2 ^ 20 + ra.val * 2 ^ 16) := by
  rw [HasWord, h, formatU, commandWord_toNat hop (formatU_fits rd ra)]
  omega

theorem hasWord_formatI {rd ra : Reg} {imm8 : Nat} (himm : imm8 ≤ 255) (h : encode i = formatI op rd ra imm8) :
    HasWord i (op * 2 ^ 24 + rd.val * 2 ^ 20 + ra.val * 2 ^ 16 + imm8) := by
  rw [HasWord, h, formatI, commandWord_toNat hop (formatI_fits rd ra imm8)]
  omega

theorem hasWord_formatD {rd : Reg} (h : encode i = formatD op rd) : HasWord i (op * 2 ^ 24 + rd.val * 2 ^ 20) := by
  rw [HasWord, h, formatD, commandWord_toNat hop (by omega)]

end Words

/-! ### The statements -/

/-- Settles O36: the quotient is defined exactly for a nonzero divisor. -/
theorem gfdivResult : Obligations.GfdivResult := by
  intro rd ra rb s hpoly
  refine ⟨fun hz => raises_of_none rfl ?_, fun hb => ?_, hasWord_formatR (op := 0x13) (by decide) rfl⟩
  · exact hz ▸ gfDiv_gfZero s.poly (s.getE ra)
  · have hinv := gfInverse_eq_gfPow hpoly hb
    exact ⟨_, hinv, writesElement_of_some rfl (gfDiv_of_gfInverse hinv (s.getE ra))⟩

/-- Settles O37: the inverse is defined exactly for a nonzero source. -/
theorem gfinvResult : Obligations.GfinvResult := by
  intro rd ra s hpoly
  refine ⟨fun hz => raises_of_none rfl ?_, fun ha => ?_, hasWord_formatU (op := 0x14) (by decide) rfl⟩
  · exact hz ▸ gfInverse_gfZero s.poly
  · exact ⟨_, gfMul_gfPow_254 hpoly ha, writesElement_of_some rfl (gfInverse_eq_gfPow hpoly ha)⟩

/-- Settles O34. -/
theorem gfaddGfsubResult : Obligations.GfaddGfsubResult := fun _ _ _ _ =>
  ⟨writesElement_of_exec rfl, hasWord_formatR (op := 0x10) (by decide) rfl,
    writesElement_of_exec rfl, hasWord_formatR (op := 0x11) (by decide) rfl⟩

/-- Settles O35. -/
theorem gfmulResult : Obligations.GfmulResult := fun _ _ _ _ =>
  ⟨writesElement_of_exec rfl, hasWord_formatR (op := 0x12) (by decide) rfl⟩

/-- Settles O38. -/
theorem gfpowGfpowiResult : Obligations.GfpowGfpowiResult := fun _ _ _ _ _ =>
  ⟨writesElement_of_exec rfl, hasWord_formatR (op := 0x15) (by decide) rfl,
    writesElement_of_exec rfl, fun himm => hasWord_formatI (op := 0x18) (by decide) himm rfl⟩

/-- Settles O39. -/
theorem gfzeroGfoneResult : Obligations.GfzeroGfoneResult := fun _ _ =>
  ⟨writesElement_of_exec rfl, hasWord_formatD (op := 0x16) (by decide) rfl,
    writesElement_of_exec rfl, hasWord_formatD (op := 0x17) (by decide) rfl⟩

end Sys2Proof.Machine
end

section
/-! PROOFS. The evaluator of 41_encode.md: the closed form of `horner` (R161), the coefficients of a chunk (R162) and
PEVAL (R163). -/

namespace Sys2Proof.Machine

/-! ### `horner` (R161) -/

section Horner

variable (p : Poly)

/-- Zero times any byte, whatever `POLY` is: `mul` is linear in its first argument. -/
theorem gfMul_gfZero_left (x : Byte) : gfMul p gfZero x = gfZero := by
  have h := gfMul_xor_left p gfZero gfZero x
  rwa [BitVec.xor_self, BitVec.xor_self] at h

/-- A product distributes over a field sum, whatever `POLY` is. -/
theorem gfMul_gfSum_left (l : List Byte) (x : Byte) : gfMul p (gfSum l) x = gfSum (l.map fun a => gfMul p a x) := by
  induction l with
  | nil => exact gfMul_gfZero_left p x
  | cons a l ih =>
    calc gfMul p (a ^^^ gfSum l) x = gfMul p a x ^^^ gfMul p (gfSum l) x := gfMul_xor_left p a (gfSum l) x
      _ = gfSum ((a :: l).map fun b => gfMul p b x) := by rw [ih]; rfl

theorem horner_cons (c₀ : Byte) (c : List Byte) (x : Byte) :
    horner p (c₀ :: c) x = gfAdd (gfMul p (horner p c x) x) c₀ := rfl

/-- A constant polynomial. -/
theorem horner_singleton (c₀ x : Byte) : horner p [c₀] x = c₀ := by
  calc horner p [c₀] x = gfMul p gfZero x ^^^ c₀ := rfl
    _ = c₀ := by rw [gfMul_gfZero_left, gfZero, BitVec.ofNat_eq_ofNat, BitVec.zero_xor]

/-- The zero polynomial. -/
theorem horner_replicate_gfZero (k : Nat) (x : Byte) : horner p (List.replicate k gfZero) x = gfZero := by
  induction k with
  | zero => rfl
  | succ k ih => rw [List.replicate_succ, horner_cons, ih, gfMul_gfZero_left]; rfl

variable {p} (h8 : p.getLsbD 8 = true)
include h8

/-- The constant term split off: the other coefficients are those of `x` times the polynomial shifted down by one. -/
theorem polyValue_succ (k : Nat) (c : Nat → Byte) (x : Byte) :
    polyValue p (k + 1) c x = gfAdd (gfMul p (polyValue p k (fun j => c (j + 1)) x) x) (c 0) := by
  have hterm : ∀ j, gfMul p (gfMul p (c (j + 1)) (gfPow p x j)) x = gfMul p (c (j + 1)) (gfPow p x (j + 1)) :=
    fun j => gfMul_assoc h8 _ _ _
  have hshift : gfMul p (polyValue p k (fun j => c (j + 1)) x) x =
      gfSum ((List.range k).map fun j => gfMul p (c (j + 1)) (gfPow p x (j + 1))) := by
    rw [polyValue, gfMul_gfSum_left, List.map_map]
    exact congrArg gfSum (List.map_congr_left fun j _ => hterm j)
  calc polyValue p (k + 1) c x
      = gfMul p (c 0) gfOne ^^^ gfSum ((List.range k).map fun j => gfMul p (c (j + 1)) (gfPow p x (j + 1))) := by
        rw [polyValue, List.range_succ_eq_map, List.map_cons, List.map_map]; rfl
    _ = gfAdd (gfMul p (polyValue p k (fun j => c (j + 1)) x) x) (c 0) := by
        rw [gfMul_gfOne h8, hshift, gfAdd, BitVec.xor_comm]

/-- The closed form of `horner` (R161), for every `POLY` of degree 8. -/
theorem horner_eq_polyValue (k : Nat) (c : Nat → Byte) (x : Byte) :
    horner p ((List.range k).map c) x = polyValue p k c x := by
  induction k generalizing c with
  | zero => rfl
  | succ k ih =>
    calc horner p ((List.range (k + 1)).map c) x
        = gfAdd (gfMul p (horner p ((List.range k).map fun j => c (j + 1)) x) x) (c 0) := by
          rw [List.range_succ_eq_map, List.map_cons, List.map_map]; rfl
      _ = polyValue p (k + 1) c x := by rw [ih, polyValue_succ h8]

end Horner

/-- Settles O41, by induction on the number of coefficients. -/
theorem hornerClosedForm : Obligations.HornerClosedForm := fun _ hp => horner_eq_polyValue (legalPoly_bit8 hp)

/-! ### The coefficients of a chunk (R162) -/

section Chunk

variable (s : State) (phase : Nat) {c : Nat}

/-- A coefficient below `LENGTH` is what is read in `DATA`. -/
theorem coefByte_of_read {j : Nat} {b : Byte} (hlt : c * s.k.toNat + j < s.length.toNat)
    (hread : Memory.read s.data (c * s.k.toNat + j) = some b) : coefByte s phase c j = b := by
  rw [coefByte, if_pos hlt, byteAt_of_read hread]

/-- A coefficient at or beyond `LENGTH` is padding. -/
theorem coefByte_beyond {j : Nat} (hge : s.length.toNat ≤ c * s.k.toNat + j) : coefByte s phase c j = gfZero :=
  if_neg (by omega)

theorem chunkCoefficients_coefByte (c : Nat) : ChunkCoefficients s c (coefByte s phase c) := fun _ _ =>
  ⟨fun hlt _ => coefByte_of_read s phase hlt, coefByte_beyond s phase⟩

/-- A chunk wholly at or beyond `LENGTH` is padding. -/
theorem coef_beyond (hge : s.length.toNat ≤ c * s.k.toNat) : coef s phase c = List.replicate s.k.toNat gfZero := by
  refine List.eq_replicate_iff.2 ⟨by simp [coef], fun b hb => ?_⟩
  obtain ⟨j, -, rfl⟩ := List.mem_map.1 hb
  exact coefByte_beyond s phase (by omega)

variable {s} in
/-- The value of chunk `c` at a point, as a field sum. -/
theorem horner_coef (hpoly : polyOk s) (x : Byte) :
    horner s.poly (coef s phase c) x = polyValue s.poly s.k.toNat (coefByte s phase c) x :=
  horner_eq_polyValue (legalPoly_bit8 hpoly) _ _ x

end Chunk

/-- Settles O42: the coefficients are those PEVAL reads, all of them padding in a chunk beyond `LENGTH`. -/
theorem pevalResult : Obligations.PevalResult := by
  intro rd ra s hpoly
  have hexec : exec (.peval rd ra) s = .next (s.setE rd (horner s.poly (coef s 0 s.chunk.toNat) (s.getE ra))) := rfl
  refine ⟨⟨coefByte s 0 s.chunk.toNat, chunkCoefficients_coefByte s 0 _, ?_⟩, fun hge => ?_,
    hasWord_formatU (op := 0x21) (by decide) rfl⟩
  · rw [horner_coef 0 hpoly] at hexec
    exact writesElement_of_exec hexec
  · rw [coef_beyond s 0 hge, horner_replicate_gfZero] at hexec
    exact writesElement_of_exec hexec

end Sys2Proof.Machine
end

section
/-! PROOFS. ENCODE (41_encode.md R165, R167): what each memory of the share table holds after it. -/

namespace Sys2Proof.Machine

/-- The state after ENCODE (R165). -/
def State.encoded (s : State) : State := s.storeShares (idStores s) (lenStores s) (bodyLenStores s) (bodyStores s)

theorem exec_encode (s : State) : exec .encode s = .next s.encoded := rfl

theorem State.encoded_frame (s : State) :
    { s.encoded with sid := s.sid, slen := s.slen, sblen := s.sblen, sbody := s.sbody } = s := rfl

/-! ### The share table after ENCODE (R165) -/

section ShareTable

variable (s : State)

theorem read_encoded_sid (slot : Nat) : Memory.read s.encoded.sid slot =
    if slot < s.n.toNat then some (BitVec.ofNat 8 (slot + 1)) else Memory.read s.sid slot :=
  read_slotStores s.sid _ _ slot

theorem read_encoded_slen (slot : Nat) : Memory.read s.encoded.slen slot =
    if slot < s.n.toNat then some s.length else Memory.read s.slen slot :=
  read_slotStores s.slen _ _ slot

theorem read_encoded_sblen (slot : Nat) : Memory.read s.encoded.sblen slot =
    if slot < s.n.toNat then some (BitVec.ofNat 16 (bodyLen s)) else Memory.read s.sblen slot :=
  read_slotStores s.sblen _ _ slot

variable {s}

/-- A body byte of a slot below `N`: no two stores meet, because a body is shorter than the slot stride. -/
theorem read_encoded_sbody {slot c : Nat} (hk : 1 ≤ s.k.toNat) (hslot : slot < s.n.toNat) (hc : c < bodyLen s) :
    Memory.read s.encoded.sbody (bodyIndex slot c) = some (shareByte s (slot + 1) c) := by
  refine Memory.read_writeAll_of_mem s.sbody (mem_bodyStores.2 ⟨slot, c, hslot, hc, rfl⟩) fun x hx he => ?_
  obtain ⟨slot', c', -, hc', rfl⟩ := mem_bodyStores.1 hx
  have hlt := bodyLen_lt s hk
  obtain ⟨rfl, rfl⟩ := bodyIndex_inj (by omega) (by omega) he
  rfl

theorem read_encoded_sbody_outside {a : Nat}
    (h : ∀ slot c, slot < s.n.toNat → c < bodyLen s → a ≠ bodyIndex slot c) :
    Memory.read s.encoded.sbody a = Memory.read s.sbody a := by
  refine Memory.read_writeAll_of_notMem s.sbody fun x hx he => ?_
  obtain ⟨slot, c, hslot, hc, rfl⟩ := mem_bodyStores.1 hx
  exact h slot c hslot hc he.symm

end ShareTable

/-- Settles O43, memory by memory; the coefficients of slot `s` are those ENCODE reads for the id `s + 1`. -/
theorem encodeResult : Obligations.EncodeResult := by
  intro s hconfig hpoly
  refine ⟨s.encoded, fun slot c => coefByte s (slot + 1) c, exec_encode s, rfl,
    fun slot => chunkCoefficients_coefByte s (slot + 1), fun slot hslot => ⟨?_, ?_, ?_, fun c hc => ?_⟩,
    fun slot hge => ⟨?_, ?_, ?_⟩, fun a => read_encoded_sbody_outside, s.encoded_frame⟩
  · rw [read_encoded_sid, if_pos hslot]
  · rw [read_encoded_slen, if_pos hslot]
  · rw [read_encoded_sblen, if_pos hslot]; rfl
  · rw [← horner_coef (slot + 1) hpoly]
    exact read_encoded_sbody hconfig.1 hslot hc
  · rw [read_encoded_sid, if_neg (by omega)]
  · rw [read_encoded_slen, if_neg (by omega)]
  · rw [read_encoded_sblen, if_neg (by omega)]

/-! ### The edge cases (R167) -/

section EdgeCases

variable {s : State}

theorem bodyLen_of_k_one (hk : s.k.toNat = 1) : bodyLen s = s.length.toNat := by
  simp [bodyLen, ceilDiv, hk]

theorem bodyLen_of_length_zero (hk : 1 ≤ s.k.toNat) (hlen : s.length.toNat = 0) : bodyLen s = 0 := by
  rw [bodyLen, ceilDiv, hlen]
  exact Nat.div_eq_of_lt (by omega)

/-- With `K = 1` a chunk is one byte of `DATA`, and the polynomial is constant. -/
theorem shareByte_of_k_one {c : Nat} {b : Byte} (hk : s.k.toNat = 1) (hc : c < s.length.toNat)
    (hread : Memory.read s.data c = some b) (x : Nat) : shareByte s x c = b := by
  have hindex : c * s.k.toNat + 0 = c := by rw [hk, Nat.mul_one, Nat.add_zero]
  have hcoef : coef s x c = [coefByte s x c 0] := by rw [coef, hk]; rfl
  rw [shareByte, hcoef, horner_singleton]
  exact coefByte_of_read s x (by rwa [hindex]) (by rwa [hindex])

theorem encoded_sbody_of_bodyLen_zero (h : bodyLen s = 0) : s.encoded.sbody = s.sbody := by
  have hnil : bodyStores s = [] := List.eq_nil_iff_forall_not_mem.2 fun x hx => by
    obtain ⟨_, c, -, hc, -⟩ := mem_bodyStores.1 hx
    omega
  rw [State.encoded, State.storeShares_sbody, hnil, Memory.writeAll_nil]

end EdgeCases

/-- Settles O44: with `K = 1` a chunk is one byte of `DATA`, with `LENGTH = 0` there is no chunk. -/
theorem encodeEdgeCases : Obligations.EncodeEdgeCases := by
  intro s t h
  rw [exec_encode] at h
  cases h
  refine ⟨fun hk hdata slot c hslot hc => ?_, fun hconfig hlen => ?_⟩
  · replace hk : s.k.toNat = 1 := by rw [hk]; rfl
    obtain ⟨b, hb⟩ := Option.isSome_iff_exists.1 (hdata c hc)
    refine ⟨?_, ?_⟩
    · rw [read_encoded_sblen, if_pos hslot, bodyLen_of_k_one hk, BitVec.ofNat_toNat, BitVec.setWidth_eq]
    · rw [hb, ← shareByte_of_k_one hk hc hb (slot + 1)]
      exact read_encoded_sbody (by omega) hslot (by rwa [bodyLen_of_k_one hk])
  · have hzero : bodyLen s = 0 := bodyLen_of_length_zero hconfig.1 (by rw [hlen]; rfl)
    refine ⟨encoded_sbody_of_bodyLen_zero hzero, fun slot hslot => ⟨?_, ?_⟩⟩
    · rw [read_encoded_slen, if_pos hslot, hlen]
    · rw [read_encoded_sblen, if_pos hslot, hzero]; rfl

end Sys2Proof.Machine
end

section
/-! PROOFS. Bytes of `DATA` at or beyond `LENGTH` have no effect (41_encode.md R162): a command's own rule commutes
with a change of `DATA` there. -/

namespace Sys2Proof.Machine

/-- `s` with other content of `DATA`. -/
def State.withData (s : State) (d : Memory 8) : State := { s with data := d }

/-- The only reads of `DATA` a command makes are those of coefficients below `LENGTH`, so only they can differ. -/
theorem coef_withData {s : State} {d : Memory 8} (h : ∀ a, a < s.length.toNat → Memory.read d a = Memory.read s.data a)
    (phase c : Nat) : coef (s.withData d) phase c = coef s phase c := by
  refine List.map_congr_left fun j _ => ?_
  by_cases hlt : c * s.k.toNat + j < s.length.toNat
  · have hbyte : (s.withData d).byteAt d (c * s.k.toNat + j) (readNo phase c j) =
        s.byteAt s.data (c * s.k.toNat + j) (readNo phase c j) := by
      rw [State.byteAt, h _ hlt]; rfl
    calc coefByte (s.withData d) phase c j
        = (s.withData d).byteAt d (c * s.k.toNat + j) (readNo phase c j) := if_pos hlt
      _ = s.byteAt s.data (c * s.k.toNat + j) (readNo phase c j) := hbyte
      _ = coefByte s phase c j := (if_pos hlt).symm
  · exact (if_neg hlt).trans (if_neg hlt).symm

/-! ### MINV and DECODE by what they computed (R183, R204) -/

/-- What MINV leaves, by the outcome of the inverter. -/
def minvOutcome (s : State) (inverse : Option Mat) : State :=
  match inverse with
  | some r => s.storeMb (cornerStores s.k.toNat r)
  | none => s.raise .singularMatrix (encode .minv)

theorem exec_minv (s : State) : exec .minv s = .next (minvOutcome s (ginv s.poly s.k.toNat (maCorner s))) := rfl

/-- What DECODE leaves, by the outcome of its steps 1 to 6. -/
def decodeOutcome (s : State) (matrix : Except CmdError Mat) : State :=
  match matrix with
  | .ok m => s.storeOut (outStores s m) (firstLen s)
  | .error e => s.raise e (encode .decode)

theorem exec_decode (s : State) : exec .decode s = .next (decodeOutcome s (decodeMatrix s)) := rfl

/-! ### Commands and `DATA` -/

theorem writeOrDomainError_withData (s : State) (d : Memory 8) (rd : Reg) (v : Option Byte) (i : Instr) :
    writeOrDomainError (s.withData d) rd v i = (writeOrDomainError s rd v i).withData d := by
  cases v with
  | none => rfl
  | some b => rfl

theorem minvOutcome_withData (s : State) (d : Memory 8) (inverse : Option Mat) :
    minvOutcome (s.withData d) inverse = (minvOutcome s inverse).withData d := by
  cases inverse with
  | none => rfl
  | some r => rfl

theorem decodeOutcome_withData (s : State) (d : Memory 8) (matrix : Except CmdError Mat) :
    decodeOutcome (s.withData d) matrix = (decodeOutcome s matrix).withData d := by
  cases matrix with
  | error e => rfl
  | ok m => rfl

theorem bodyStores_withData {s : State} {d : Memory 8}
    (h : ∀ a, a < s.length.toNat → Memory.read d a = Memory.read s.data a) :
    bodyStores (s.withData d) = bodyStores s := by
  have hshare : ∀ x c, shareByte (s.withData d) x c = shareByte s x c := fun x c => by
    rw [shareByte, coef_withData h]; rfl
  simp only [bodyStores, hshare]
  rfl

/-- A command that reads no coefficient does not depend on `DATA` and leaves it alone; PEVAL and ENCODE read it through
`coef` only. -/
theorem exec_withData {i : Instr} {s t : State} {d : Memory 8}
    (h : ∀ a, a < s.length.toNat → Memory.read d a = Memory.read s.data a) (he : exec i s = .next t) :
    exec i (s.withData d) = .next (t.withData d) := by
  cases i with
  | gfadd | gfsub | gfmul | gfpow | gfzero | gfone | gfpowi | vand => cases he; rfl
  | gfdiv rd ra rb =>
    cases he
    exact congrArg Host.Outcome.next (writeOrDomainError_withData s d rd (gfDiv s.poly (s.getE ra) (s.getE rb)) _)
  | gfinv rd ra =>
    cases he
    exact congrArg Host.Outcome.next (writeOrDomainError_withData s d rd (gfInverse s.poly (s.getE ra)) _)
  | config n k =>
    cases he
    exact congrArg Host.Outcome.next
      (apply_ite (State.withData · d) _ (s.raise .configuration _) (s.setConfig _ _)).symm
  | minv =>
    cases he
    exact (exec_minv (s.withData d)).trans (congrArg Host.Outcome.next (minvOutcome_withData s d _))
  | decode =>
    cases he
    exact (exec_decode (s.withData d)).trans (congrArg Host.Outcome.next (decodeOutcome_withData s d _))
  | peval rd ra =>
    cases he
    calc exec (.peval rd ra) (s.withData d)
        = .next ((s.withData d).setE rd (horner s.poly (coef (s.withData d) 0 s.chunk.toNat) (s.getE ra))) := rfl
      _ = .next ((s.setE rd (horner s.poly (coef s 0 s.chunk.toNat) (s.getE ra))).withData d) := by
        rw [coef_withData h]; rfl
  | encode =>
    cases he
    calc exec .encode (s.withData d)
        = .next ((s.withData d).storeShares (idStores s) (lenStores s) (bodyLenStores s)
            (bodyStores (s.withData d))) := rfl
      _ = .next (s.encoded.withData d) := by rw [bodyStores_withData h]; rfl

/-- Settles O45: the second state is the first with other content of `DATA`. -/
theorem dataBeyondLengthHasNoEffect : Obligations.DataBeyondLengthHasNoEffect := by
  intro i s s' t t' hs hdata ht ht'
  have hs' : s' = s.withData s'.data := by rw [← hs]; rfl
  rw [hs', exec_withData hdata ht] at ht'
  cases ht'
  rfl

end Sys2Proof.Machine
end

section
/-! PROOFS. The inverter as linear algebra over the field of 256 elements (43_matrix.md R203, R207, R208): the pivots
multiply from the left, and a pivot is zero exactly where a leading corner is singular. -/

namespace Sys2Proof.Machine

/-! ### Corners over the field (R200) -/

/-- The leading n×n corner of a matrix of bytes, as a matrix over the residue classes modulo `POLY(t)`. -/
noncomputable def corner (p : Poly) (n : Nat) (a : Nat → Nat → Byte) :
    Matrix (Fin n) (Fin n) (AdjoinRoot (polyOf p)) :=
  Matrix.of fun r c => gfValue p (a r c)

theorem corner_apply (p : Poly) {n : Nat} (a : Nat → Nat → Byte) (r c : Fin n) : corner p n a r c = gfValue p (a r c) :=
  rfl

theorem gfValue_gfSub (p : Poly) (a b : Byte) : gfValue p (gfSub a b) = gfValue p a - gfValue p b := by
  have h : gfAdd (gfSub a b) b = a := by rw [gfAdd, gfSub, BitVec.xor_assoc, BitVec.xor_self, BitVec.xor_zero]
  rw [eq_sub_iff_add_eq, ← gfValue_gfAdd, h]

theorem gfValue_gfSum (p : Poly) (k : Nat) (f : Nat → Byte) :
    gfValue p (gfSum ((List.range k).map f)) = ∑ m : Fin k, gfValue p (f m) := by
  have hlist : ∀ l : List Byte, gfValue p (gfSum l) = (l.map (gfValue p)).sum := fun l => by
    induction l with
    | nil => exact gfValue_gfZero p
    | cons a l ih => rw [List.map_cons, List.sum_cons, ← ih]; exact gfValue_gfAdd p a (gfSum l)
  rw [hlist, List.map_map, ← Finset.sum_range fun m => gfValue p (f m)]
  rfl

/-- The matrix of the entries of a tabulated matrix. -/
theorem corner_matOf (p : Poly) (k : Nat) (a : Nat → Nat → Byte) : corner p k (entry (matOf k a)) = corner p k a := by
  ext r c
  rw [corner_apply, entry_matOf a r.2 c.2, corner_apply]

theorem corner_matOne (p : Poly) (k : Nat) : corner p k (entry (matOne k)) = 1 := by
  ext r c
  rw [corner_apply, entry_matOne r.2 c.2, Matrix.one_apply, apply_ite (gfValue p), gfValue_gfOne, gfValue_gfZero]
  exact if_congr Fin.ext_iff.symm rfl rfl

theorem productIsOne_iff {p : Poly} (h8 : p.getLsbD 8 = true) {k : Nat} {a b : Nat → Nat → Byte} :
    ProductIsOne p k a b ↔ corner p k a * corner p k b = 1 := by
  have hentry : ∀ r c : Fin k, (corner p k a * corner p k b) r c =
      gfValue p (gfSum ((List.range k).map fun m => gfMul p (a r m) (b m c))) := fun r c => by
    rw [gfValue_gfSum, Matrix.mul_apply]
    exact Finset.sum_congr rfl fun m _ => (gfValue_gfMul h8 _ _).symm
  have hone : ∀ r c : Fin k, (1 : Matrix (Fin k) (Fin k) (AdjoinRoot (polyOf p))) r c =
      gfValue p (if r.val = c.val then 0x01 else 0x00) := fun r c => by
    rw [← corner_matOne, corner_apply, entry_matOne r.2 c.2]; rfl
  constructor
  · intro h
    ext r c
    rw [hentry, hone, h r c r.2 c.2]
  · intro h r c hr hc
    refine gfValue_injective h8 ?_
    rw [← hentry ⟨r, hr⟩ ⟨c, hc⟩, h, hone]

/-! ### One pivot (R203) -/

section Pivot

variable {R : Type} [CommRing R] {k : Nat} (i : Fin k) (q : R) (coeff : Fin k → R)

/-- Steps (b) and (c) of R203 over a ring: row `i` is scaled by `q` and subtracted, times `coeff`, from every other. -/
def rowsCleared (m : Matrix (Fin k) (Fin k) R) : Matrix (Fin k) (Fin k) R :=
  Matrix.of fun r c => if r = i then m i c * q else m r c - coeff r * (m i c * q)

theorem rowsCleared_apply (m : Matrix (Fin k) (Fin k) R) (r c : Fin k) :
    rowsCleared i q coeff m r c = if r = i then m i c * q else m r c - coeff r * (m i c * q) := rfl

/-- Row operations commute with a factor on the right. -/
theorem rowsCleared_mul (m a : Matrix (Fin k) (Fin k) R) : rowsCleared i q coeff (m * a) = rowsCleared i q coeff m * a := by
  have hscaled : ∀ c, (m * a) i c * q = ∑ l, m i l * q * a l c := fun c => by
    rw [Matrix.mul_apply, Finset.sum_mul]
    exact Finset.sum_congr rfl fun l _ => mul_right_comm _ _ _
  ext r c
  rw [Matrix.mul_apply, rowsCleared_apply, hscaled]
  by_cases h : r = i
  · rw [if_pos h]
    exact Finset.sum_congr rfl fun l _ => by rw [rowsCleared_apply, if_pos h]
  · rw [if_neg h, Matrix.mul_apply, Finset.mul_sum, ← Finset.sum_sub_distrib]
    exact Finset.sum_congr rfl fun l _ => by rw [rowsCleared_apply, if_neg h, sub_mul, mul_assoc (coeff r)]

/-- A column whose entry in the pivot row is zero stays as it is. -/
theorem rowsCleared_of_pivotRow_zero {m : Matrix (Fin k) (Fin k) R} {c : Fin k} (h : m i c = 0) (r : Fin k) :
    rowsCleared i q coeff m r c = m r c := by
  rw [rowsCleared_apply, h]
  split_ifs with hr
  · rw [zero_mul, hr, h]
  · rw [zero_mul, mul_zero, sub_zero]

/-- The pivot's own column becomes a unit column. -/
theorem rowsCleared_pivotColumn {m : Matrix (Fin k) (Fin k) R} (h : m i i * q = 1) (r : Fin k) :
    rowsCleared i q (fun j => m j i) m r i = (1 : Matrix (Fin k) (Fin k) R) r i := by
  rw [rowsCleared_apply, h, Matrix.one_apply, mul_one, sub_self]

end Pivot

theorem corner_eliminate {p : Poly} (h8 : p.getLsbD 8 = true) {k : Nat} (i : Fin k) (q : Byte) (coeff : Nat → Byte) (a : Mat) :
    corner p k (entry (eliminate p k i q coeff a)) =
      rowsCleared i (gfValue p q) (fun j => gfValue p (coeff j)) (corner p k (entry a)) := by
  ext r c
  rw [corner_apply, entry_eliminate p q coeff a r.2 c.2, rowsCleared_apply, apply_ite (gfValue p), gfValue_gfSub,
    gfValue_gfMul h8, gfValue_gfMul h8, gfValue_gfMul h8]
  exact if_congr Fin.ext_iff.symm rfl rfl

/-! ### What holds after n pivots -/

/-- The columns of a matrix that `column` names are those of the identity. -/
def UnitColumns (p : Poly) (k : Nat) (m : Mat) (column : Nat → Prop) : Prop :=
  ∀ r c : Fin k, column c → corner p k (entry m) r c = (1 : Matrix (Fin k) (Fin k) (AdjoinRoot (polyOf p))) r c

/-- The pair (`tmp`, `inv`) after the first `n` pivots on `a`: `tmp` is `inv · a`, the first `n` columns of `tmp` and
the others of `inv` are those of the identity. -/
def Reduced (p : Poly) (k n : Nat) (a : Nat → Nat → Byte) (w : Mat × Mat) : Prop :=
  corner p k (entry w.1) = corner p k (entry w.2) * corner p k a ∧
    UnitColumns p k w.1 (· < n) ∧ UnitColumns p k w.2 (n ≤ ·)

theorem reduced_start (p : Poly) (k : Nat) (a : Nat → Nat → Byte) : Reduced p k 0 a (matOf k a, matOne k) := by
  refine ⟨?_, fun _ _ h => absurd h (Nat.not_lt_zero _), fun _ _ _ => ?_⟩
  · rw [corner_matOf, corner_matOne, one_mul]
  · rw [corner_matOne]

section Corners

variable {p : Poly} {k n : Nat} {a : Nat → Nat → Byte} {w w' : Mat × Mat}

theorem Reduced.product (h : Reduced p k n a w) : corner p k (entry w.1) = corner p k (entry w.2) * corner p k a := h.1

theorem Reduced.done (h : Reduced p k n a w) : UnitColumns p k w.1 (· < n) := h.2.1

theorem Reduced.untouched (h : Reduced p k n a w) : UnitColumns p k w.2 (n ≤ ·) := h.2.2

/-- A pivot keeps the columns before it, makes its own a unit column, and touches no column after it of `inv`. -/
theorem Reduced.of_pivotStep (h8 : p.getLsbD 8 = true) (hn : n < k) (h : Reduced p k n a w)
    (hstep : pivotStep p k w n = some w') : Reduced p k (n + 1) a w' := by
  obtain ⟨hproduct, hdone, huntouched⟩ := h
  obtain ⟨-, q, hq, rfl⟩ := pivotStep_some hstep
  have hpivot : corner p k (entry w.1) ⟨n, hn⟩ ⟨n, hn⟩ * gfValue p q = 1 := by
    rw [corner_apply, ← gfValue_gfMul h8, (gfInverse_eq_some h8).1 hq, gfValue_gfOne]
  have hclear := corner_eliminate h8 ⟨n, hn⟩ q fun j => entry w.1 j n
  refine ⟨?_, fun r c hc => ?_, fun r c hc => ?_⟩
  · rw [hclear, hclear, hproduct, rowsCleared_mul]
  · rw [hclear]
    by_cases hcn : c = ⟨n, hn⟩
    · subst hcn
      exact rowsCleared_pivotColumn _ _ hpivot r
    · have hlt : c.val < n := lt_of_le_of_ne (Nat.le_of_lt_succ hc) fun e => hcn (Fin.ext e)
      rw [rowsCleared_of_pivotRow_zero _ _ _ ((hdone _ c hlt).trans (Matrix.one_apply_ne' hcn)), hdone r c hlt]
  · have hne : c ≠ ⟨n, hn⟩ := fun e => by rw [e] at hc; exact absurd hc (Nat.not_succ_le_self n)
    rw [hclear, rowsCleared_of_pivotRow_zero _ _ _ ((huntouched _ c (by omega)).trans (Matrix.one_apply_ne' hne)),
      huntouched r c (by omega)]

/-- The leading corner of `tmp` is the product of those of `inv` and `a`: columns of `inv` outside it add nothing. -/
theorem Reduced.corner_product (h : Reduced p k n a w) {m : Nat} (hm : n ≤ m) (hmk : m ≤ k) :
    corner p m (entry w.1) = corner p m (entry w.2) * corner p m a := by
  ext r c
  have hr : r.val < k := r.2.trans_le hmk
  have hc : c.val < k := c.2.trans_le hmk
  have hrow := congrFun (congrFun h.product ⟨r, hr⟩) ⟨c, hc⟩
  rw [Matrix.mul_apply] at hrow ⊢
  rw [corner_apply, ← corner_apply p (entry w.1) ⟨r, hr⟩ ⟨c, hc⟩, hrow]
  simp only [corner_apply]
  rw [← Finset.sum_range fun l => gfValue p (entry w.2 r l) * gfValue p (a l c),
    ← Finset.sum_range fun l => gfValue p (entry w.2 r l) * gfValue p (a l c)]
  refine (Finset.sum_subset (Finset.range_subset_range.2 hmk) fun l hl hlm => ?_).symm
  have hlk := Finset.mem_range.1 hl
  have hml : m ≤ l := Nat.le_of_not_lt fun hlt => hlm (Finset.mem_range.2 hlt)
  have hzero := h.untouched ⟨r, hr⟩ ⟨l, hlk⟩ (hm.trans hml)
  rw [Matrix.one_apply_ne (Fin.ne_of_val_ne (by simp; omega)), corner_apply] at hzero
  rw [hzero, zero_mul]

/-- Expansion along a last column that is a unit column. -/
theorem det_corner_succ {e : Nat → Nat → Byte}
    (hlast : ∀ r : Fin (n + 1), corner p (n + 1) e r (Fin.last n) = (1 : Matrix _ _ (AdjoinRoot (polyOf p))) r (Fin.last n)) :
    (corner p (n + 1) e).det = (corner p n e).det := by
  rw [Matrix.det_succ_column _ (Fin.last n), Finset.sum_eq_single (Fin.last n)]
  · rw [hlast, Matrix.one_apply_eq, mul_one, Fin.succAbove_last, ← two_mul, pow_mul, neg_one_sq, one_pow, one_mul]
    rfl
  · intro r _ hr
    rw [hlast, Matrix.one_apply_ne hr, mul_zero, zero_mul]
  · exact fun hmem => absurd (Finset.mem_univ _) hmem

/-- The leading corner of `tmp` that ends in pivot `n` has the pivot as its determinant. -/
theorem Reduced.det_corner_tmp (h : Reduced p k n a w) (hn : n < k) :
    (corner p (n + 1) (entry w.1)).det = gfValue p (entry w.1 n n) := by
  have hdone : ∀ r c : Fin (n + 1), c.val < n →
      corner p (n + 1) (entry w.1) r c = (1 : Matrix _ _ (AdjoinRoot (polyOf p))) r c := fun r c hc => by
    refine (h.done ⟨r, r.2.trans_le hn⟩ ⟨c, c.2.trans_le hn⟩ hc).trans ?_
    simp only [Matrix.one_apply, Fin.ext_iff]
  have htri : (corner p (n + 1) (entry w.1)).IsUpperTriangular := fun r c hcr => by
    have hlt : c < r := hcr
    rw [hdone r c (hlt.trans_le (Fin.le_last r)), Matrix.one_apply_ne hlt.ne']
  rw [Matrix.det_of_isUpperTriangular htri, Fin.prod_univ_castSucc, Finset.prod_eq_one, one_mul]
  · rfl
  · exact fun r _ => (hdone r.castSucc r.castSucc r.2).trans (Matrix.one_apply_eq _)

/-- Pivot `n` is zero exactly where the leading corner of size n + 1 is singular. -/
theorem Reduced.pivot_eq_zero_iff (h : Reduced p k n a w) (hn : n < k) :
    gfValue p (entry w.1 n n) = 0 ↔ (corner p (n + 1) a).det = 0 := by
  have hinv : (corner p n (entry w.2)).det * (corner p n a).det = 1 := by
    have hone : corner p n (entry w.1) = 1 := by
      ext r c
      refine (h.done ⟨r, r.2.trans hn⟩ ⟨c, c.2.trans hn⟩ c.2).trans ?_
      simp only [Matrix.one_apply, Fin.ext_iff]
    rw [← Matrix.det_mul, ← h.corner_product le_rfl hn.le, hone, Matrix.det_one]
  have hlast : (corner p (n + 1) (entry w.2)).det = (corner p n (entry w.2)).det := det_corner_succ fun r => by
    refine (h.untouched ⟨r, r.2.trans_le hn⟩ ⟨n, hn⟩ le_rfl).trans ?_
    simp only [Matrix.one_apply, Fin.ext_iff, Fin.val_last]
  rw [← h.det_corner_tmp hn, h.corner_product n.le_succ hn, Matrix.det_mul, hlast]
  exact (IsUnit.of_mul_eq_one _ hinv).mul_right_eq_zero

end Corners

/-! ### All pivots -/

/-- The first `n` pivots of `ginv`. -/
def pivots (p : Poly) (k n : Nat) (a : Mat) : Option (Mat × Mat) :=
  (List.range n).foldlM (pivotStep p k) (a, matOne k)

theorem ginv_eq_pivots (p : Poly) (k : Nat) (a : Mat) : ginv p k a = (pivots p k k a).map (·.2) := rfl

theorem pivots_succ (p : Poly) (k n : Nat) (a : Mat) :
    pivots p k (n + 1) a = (pivots p k n a).bind fun w => pivotStep p k w n := by
  rw [pivots, List.range_succ, List.foldlM_append]
  exact congrArg _ (funext fun w => bind_pure _)

section Ginv

variable {p : Poly} {k : Nat} {a : Nat → Nat → Byte}

theorem reduced_of_pivots (h8 : p.getLsbD 8 = true) {n : Nat} {w : Mat × Mat} (hn : n ≤ k)
    (h : pivots p k n (matOf k a) = some w) : Reduced p k n a w := by
  induction n generalizing w with
  | zero => cases h; exact reduced_start p k a
  | succ n ih =>
    rw [pivots_succ] at h
    obtain ⟨v, hv, hstep⟩ := Option.bind_eq_some_iff.1 h
    exact (ih (Nat.le_of_succ_le hn) hv).of_pivotStep h8 hn hstep

/-- R207: what the inverter returns is a left inverse, and so a two-sided one. -/
theorem productIsOne_of_ginv (h8 : p.getLsbD 8 = true) {m : Mat} (h : ginv p k (matOf k a) = some m) :
    ProductIsOne p k (entry m) a ∧ ProductIsOne p k a (entry m) := by
  rw [ginv_eq_pivots] at h
  obtain ⟨w, hw, rfl⟩ := Option.map_eq_some_iff.1 h
  have hred := reduced_of_pivots h8 le_rfl hw
  have hone : corner p k (entry w.1) = 1 := by
    ext r c
    exact hred.done r c c.2
  have hleft : corner p k (entry w.2) * corner p k a = 1 := by rw [← hred.product, hone]
  exact ⟨(productIsOne_iff h8).2 hleft, (productIsOne_iff h8).2 (mul_eq_one_comm.1 hleft)⟩

variable (hp : p ∈ Config.legalPolys)
include hp

/-- A pivot that is not zero has an inverse, so zero is all that stops the inverter (R206). -/
theorem pivotStep_isSome_iff {w : Mat × Mat} {i : Nat} :
    (∃ w', pivotStep p k w i = some w') ↔ gfValue p (entry w.1 i i) ≠ 0 := by
  have hzero : gfValue p (entry w.1 i i) = 0 ↔ entry w.1 i i = gfZero :=
    ⟨fun h => gfValue_injective (legalPoly_bit8 hp) (h.trans (gfValue_gfZero p).symm), fun h => h ▸ gfValue_gfZero p⟩
  rw [Ne, hzero]
  refine ⟨fun ⟨w', h⟩ => (pivotStep_some h).1, fun h => ?_⟩
  rw [pivotStep, if_neg h, gfInverse_eq_gfPow hp h]
  exact ⟨_, rfl⟩

theorem pivots_isSome_iff {n : Nat} (hn : n ≤ k) :
    (∃ w, pivots p k n (matOf k a) = some w) ↔ ∀ m, m < n → (corner p (m + 1) a).det ≠ 0 := by
  induction n with
  | zero => exact ⟨fun _ m hm => absurd hm m.not_lt_zero, fun _ => ⟨_, rfl⟩⟩
  | succ n ih =>
    have ih := ih (Nat.le_of_succ_le hn)
    have hpivot : ∀ v, pivots p k n (matOf k a) = some v →
        ((∃ w, pivotStep p k v n = some w) ↔ (corner p (n + 1) a).det ≠ 0) := fun v hv => by
      have hred := reduced_of_pivots (legalPoly_bit8 hp) (Nat.le_of_succ_le hn) hv
      rw [pivotStep_isSome_iff hp, Ne, hred.pivot_eq_zero_iff hn]
    rw [Nat.forall_lt_succ_right, pivots_succ]
    constructor
    · rintro ⟨w, hw⟩
      obtain ⟨v, hv, hstep⟩ := Option.bind_eq_some_iff.1 hw
      exact ⟨ih.1 ⟨v, hv⟩, (hpivot v hv).1 ⟨w, hstep⟩⟩
    · rintro ⟨hcorners, hlast⟩
      obtain ⟨v, hv⟩ := ih.2 hcorners
      obtain ⟨w, hw⟩ := (hpivot v hv).2 hlast
      exact ⟨w, Option.bind_eq_some_iff.2 ⟨v, hv, hw⟩⟩

/-- R208, first part: the inverter succeeds exactly where no leading corner is singular. -/
theorem ginv_isSome_iff_det :
    (∃ m, ginv p k (matOf k a) = some m) ↔ ∀ m, m < k → (corner p (m + 1) a).det ≠ 0 := by
  rw [← pivots_isSome_iff hp le_rfl]
  rw [ginv_eq_pivots]
  constructor
  · rintro ⟨m, hm⟩
    obtain ⟨w, hw, -⟩ := Option.map_eq_some_iff.1 hm
    exact ⟨w, hw⟩
  · rintro ⟨w, hw⟩
    exact ⟨w.2, Option.map_eq_some_iff.2 ⟨w, hw, rfl⟩⟩

/-- R208, second part: the leading corners of a Vandermonde matrix are those of its first nodes. -/
theorem ginv_vand_isSome_iff {x : Nat → Byte} :
    (∃ m, ginv p k (vand p k x) = some m) ↔ ∀ i j, i < k → j < k → x i = x j → i = j := by
  have h8 := legalPoly_bit8 hp
  have : Fact (Irreducible (polyOf p)) := ⟨irreducible_poly hp⟩
  have hdet : ∀ n, (corner p n fun i j => gfPow p (x i) j).det ≠ 0 ↔
      Function.Injective fun i : Fin n => gfValue p (x i) := fun n => by
    have hvand : (corner p n fun i j => gfPow p (x i) j) = Matrix.vandermonde fun i : Fin n => gfValue p (x i) := by
      ext i j
      exact gfValue_gfPow h8 _ _
    rw [hvand, Matrix.det_vandermonde_ne_zero_iff]
  refine (ginv_isSome_iff_det hp).trans ?_
  simp only [hdet]
  constructor
  · intro h i j hi hj hx
    have hk : k - 1 + 1 = k := by omega
    exact Fin.mk.inj_iff.1 (@h (k - 1) (by omega) ⟨i, by omega⟩ ⟨j, by omega⟩ (congrArg (gfValue p) hx))
  · intro h m hm i j hij
    exact Fin.ext (h i j (by omega) (by omega) (gfValue_injective h8 hij))

end Ginv

end Sys2Proof.Machine
end

section
/-! PROOFS. DECODE (42_decode.md): what its checks find in a share table whose supplied slots are written (R183 to R187),
and what it writes where none of them fails (R182, R188). -/

namespace Sys2Proof.Machine

/-! ### The outcome of the checks -/

section Checks

variable {s : State}

theorem raises_of_decodeMatrix {e : CmdError} (h : decodeMatrix s = .error e) : Raises .decode e s := by
  rw [Raises, exec_decode, h]; rfl

theorem exec_decode_of_ok {d : Mat} (h : decodeMatrix s = .ok d) :
    exec .decode s = .next (s.storeOut (outStores s d) (firstLen s)) := by
  rw [exec_decode, h]; rfl

/-- Steps 2 and 3 of R183 find nothing to refuse in what they read. -/
def SharesAgree (s : State) : Prop := lengthsDisagree s = false ∧ idAboveN s = false ∧ bodyLenWrong s = false

/-- Everything the steps after the first can answer (R183, R187): InconsistentShares for shares that do not agree,
SingularMatrix for selected ids that are not all usable, or a decode matrix. -/
theorem decodeMatrix_cases (hk : s.k.toNat ≤ s.scnt.toNat) :
    (¬ SharesAgree s ∧ decodeMatrix s = .error .inconsistentShares) ∨
    (SharesAgree s ∧ decodeMatrix s = .error .singularMatrix ∧
      (selectedIdZero s = false → ginv s.poly s.k.toNat (decodeVand s) = none)) ∨
    ∃ d, decodeMatrix s = .ok d := by
  rw [decodeMatrix, if_neg (Nat.not_lt.2 hk)]
  cases h2 : lengthsDisagree s with
  | true => exact .inl ⟨fun h => absurd (h2.symm.trans h.1) (by decide), rfl⟩
  | false =>
    cases h3 : idAboveN s with
    | true => exact .inl ⟨fun h => absurd (h3.symm.trans h.2.1) (by decide), rfl⟩
    | false =>
      cases h4 : bodyLenWrong s with
      | true => exact .inl ⟨fun h => absurd (h4.symm.trans h.2.2) (by decide), rfl⟩
      | false =>
        cases selectedIdZero s with
        | true => exact .inr (.inl ⟨⟨h2, h3, h4⟩, rfl, fun h => absurd h (by decide)⟩)
        | false =>
          cases ginv s.poly s.k.toNat (decodeVand s) with
          | none => exact .inr (.inl ⟨⟨h2, h3, h4⟩, rfl, fun _ => rfl⟩)
          | some d => exact .inr (.inr ⟨d, rfl⟩)

theorem sharesAgree_of_ok {d : Mat} (h : decodeMatrix s = .ok d) : SharesAgree s := by
  obtain ⟨-, h2, h3, h4, -, -⟩ := decodeMatrix_ok h
  exact ⟨h2, h3, h4⟩

theorem decodeMatrix_of_not_sharesAgree (hk : s.k.toNat ≤ s.scnt.toNat) (h : ¬ SharesAgree s) :
    decodeMatrix s = .error .inconsistentShares := by
  rcases decodeMatrix_cases hk with ⟨-, he⟩ | ⟨hagree, -⟩ | ⟨d, hd⟩
  · exact he
  · exact absurd hagree h
  · exact absurd (sharesAgree_of_ok hd) h

/-- Where the shares agree, SingularMatrix is all that can be raised (R186). -/
theorem decodeMatrix_of_sharesAgree (hk : s.k.toNat ≤ s.scnt.toNat) (h : SharesAgree s) :
    decodeMatrix s = .error .singularMatrix ∨ ∃ d, decodeMatrix s = .ok d := by
  rcases decodeMatrix_cases hk with ⟨hno, -⟩ | ⟨-, he, -⟩ | hok
  · exact absurd h hno
  · exact .inl he
  · exact .inr hok

/-- No check fails: the converse of `decodeMatrix_ok`. -/
theorem decodeMatrix_of_checks {d : Mat} (hk : s.k.toNat ≤ s.scnt.toNat) (h : SharesAgree s)
    (hzero : selectedIdZero s = false) (hd : ginv s.poly s.k.toNat (decodeVand s) = some d) : decodeMatrix s = .ok d := by
  rcases decodeMatrix_cases hk with ⟨hno, -⟩ | ⟨-, -, hnone⟩ | ⟨d', hd'⟩
  · exact absurd h hno
  · rw [hnone hzero] at hd
    cases hd
  · obtain ⟨-, -, -, -, -, hginv⟩ := decodeMatrix_ok hd'
    rw [hd', ← Option.some.inj (hginv.symm.trans hd)]

end Checks

/-! ### The checks over a written share table -/

section Written

variable {s : State} {id : Nat → Byte} {len blen : Nat → Half} (h : Supplied s id len blen)
include h

theorem Supplied.k_le_scnt : s.k.toNat ≤ s.scnt.toNat := h.2.1

theorem Supplied.firstLen_eq : firstLen s = len 0 := by
  obtain ⟨hk, hscnt, hslots⟩ := h
  exact halfAt_of_read (hslots 0 (by omega)).2.1

theorem Supplied.firstBodyLen_eq : firstBodyLen s = blen 0 := by
  obtain ⟨hk, hscnt, hslots⟩ := h
  exact halfAt_of_read (hslots 0 (by omega)).2.2

theorem Supplied.lengthsDisagree_eq_false_iff :
    lengthsDisagree s = false ↔ ∀ i, i < s.scnt.toNat → len i = len 0 ∧ blen i = blen 0 := by
  rw [lengthsDisagree, h.firstLen_eq, h.firstBodyLen_eq]
  simp only [List.any_eq_false, List.mem_range]
  obtain ⟨-, -, hslots⟩ := h
  refine forall₂_congr fun i hi => ?_
  obtain ⟨-, hlen, hblen⟩ := hslots i hi
  rw [halfAt_of_read hlen, halfAt_of_read hblen]
  simp

theorem Supplied.idAboveN_eq_false_iff : idAboveN s = false ↔ ∀ i, i < s.scnt.toNat → (id i).toNat ≤ s.n.toNat := by
  obtain ⟨-, -, hslots⟩ := h
  simp only [idAboveN, List.any_eq_false, List.mem_range]
  refine forall₂_congr fun i hi => ?_
  rw [byteAt_of_read (hslots i hi).1]
  simp

theorem Supplied.bodyLenWrong_eq_false_iff :
    bodyLenWrong s = false ↔ (blen 0).toNat = ((len 0).toNat + s.k.toNat - 1) / s.k.toNat := by
  rw [bodyLenWrong, h.firstLen_eq, h.firstBodyLen_eq, decide_eq_false_iff_not, not_not, ceilDiv]

theorem Supplied.consistent_iff : Consistent s id len blen ↔ SharesAgree s := by
  have hlens := h.lengthsDisagree_eq_false_iff
  have hids := h.idAboveN_eq_false_iff
  have hblen := h.bodyLenWrong_eq_false_iff
  constructor
  · rintro ⟨hslots, hb⟩
    exact ⟨hlens.2 fun i hi => ⟨(hslots i hi).1, (hslots i hi).2.1⟩, hids.2 fun i hi => (hslots i hi).2.2, hblen.2 hb⟩
  · rintro ⟨h2, h3, h4⟩
    exact ⟨fun i hi => ⟨(hlens.1 h2 i hi).1, (hlens.1 h2 i hi).2, hids.1 h3 i hi⟩, hblen.1 h4⟩

theorem Supplied.selectedIdZero_eq_false_iff : selectedIdZero s = false ↔ ∀ i, i < s.k.toNat → id i ≠ 0x00 := by
  obtain ⟨-, hscnt, hslots⟩ := h
  simp only [selectedIdZero, List.any_eq_false, List.mem_range]
  refine forall₂_congr fun i hi => ?_
  rw [byteAt_of_read (hslots i (by omega)).1, beq_iff_eq]
  rfl

theorem Supplied.decodeVand_eq : decodeVand s = vand s.poly s.k.toNat id := by
  obtain ⟨-, hscnt, hslots⟩ := h
  exact matOf_congr fun i j hi _ => congrArg (gfPow s.poly · j) (byteAt_of_read (hslots i (by omega)).1)

/-- Enough consistent shares with nonzero selected ids decode by the inverse of their Vandermonde matrix. -/
theorem Supplied.decodeMatrix_eq_ok_iff (hc : Consistent s id len blen) {d : Mat} : decodeMatrix s = .ok d ↔
    (∀ i, i < s.k.toNat → id i ≠ 0x00) ∧ ginv s.poly s.k.toNat (vand s.poly s.k.toNat id) = some d := by
  rw [← h.selectedIdZero_eq_false_iff, ← h.decodeVand_eq]
  refine ⟨fun hd => ?_, fun ⟨hzero, hd⟩ => ?_⟩
  · obtain ⟨-, -, -, -, hzero, hd⟩ := decodeMatrix_ok hd
    exact ⟨hzero, hd⟩
  · exact decodeMatrix_of_checks h.k_le_scnt (h.consistent_iff.1 hc) hzero hd

end Written

/-! ### The statements on errors -/

/-- Settles O53: step 1 reads no slot. -/
theorem decodeInsufficientShares : Obligations.DecodeInsufficientShares := fun _ h =>
  raises_of_decodeMatrix (if_pos h)

/-- Settles O54: steps 2 and 3 stand before every look at the selected ids. -/
theorem decodeInconsistentShares : Obligations.DecodeInconsistentShares := fun _ _ _ _ h hc =>
  raises_of_decodeMatrix (decodeMatrix_of_not_sharesAgree h.k_le_scnt (mt h.consistent_iff.2 hc))

/-- Settles O55: a Vandermonde matrix has an inverse exactly where its nodes are distinct. -/
theorem decodeSingularIffZeroOrDuplicate : Obligations.DecodeSingularIffZeroOrDuplicate := by
  intro s id len blen hpoly herr h hc
  have hraises : Raises .decode .singularMatrix s ↔ ¬ ∃ d, decodeMatrix s = .ok d := by
    have hcases := decodeMatrix_of_sharesAgree h.k_le_scnt (h.consistent_iff.1 hc)
    refine ⟨fun hr ⟨d, hd⟩ => ?_, fun hno => raises_of_decodeMatrix (hcases.resolve_right hno)⟩
    have hsame := congrArg State.err (Host.Outcome.next.inj ((exec_decode_of_ok hd).symm.trans hr))
    rw [State.storeOut_err, herr] at hsame
    exact absurd hsame (by simp)
  have hok : (∃ d, decodeMatrix s = .ok d) ↔
      (∀ i, i < s.k.toNat → id i ≠ 0x00) ∧ ∀ i j, i < s.k.toNat → j < s.k.toNat → id i = id j → i = j := by
    rw [← ginv_vand_isSome_iff hpoly, ← exists_and_left]
    exact exists_congr fun _ => h.decodeMatrix_eq_ok_iff hc
  rw [hraises, hok, not_and_or]
  refine or_congr (by push Not; rfl) ?_
  push Not
  constructor
  · rintro ⟨i, j, hi, hj, heq, hne⟩
    rcases Nat.lt_or_gt_of_ne hne with hlt | hgt
    · exact ⟨i, j, hlt, hj, heq⟩
    · exact ⟨j, i, hgt, hi, heq.symm⟩
  · rintro ⟨i, j, hlt, hj, heq⟩
    exact ⟨i, j, hlt.trans hj, hj, heq, hlt.ne⟩

/-! ### The output (R182, R183 step 7) -/

section Output

variable {s : State} {d : Mat}

/-- Step 7 leaves `OUT` at and above L as it was. -/
theorem read_outStores_beyond (m : Memory 8) {a : Nat} (ha : (firstLen s).toNat ≤ a) :
    Memory.read (Memory.writeAll m (outStores s d)) a = Memory.read m a := by
  refine Memory.read_writeAll_of_notMem m fun x hx he => ?_
  obtain ⟨i, j, -, -, hl, rfl⟩ := mem_outStores.1 hx
  exact absurd hl (Nat.not_lt.2 (ha.trans_eq he.symm))

/-- An index of `OUT` below L lies in a chunk that the bodies hold. -/
theorem chunk_lt_of_index_lt {i j : Nat} (hb : bodyLenWrong s = false) (hj : j < s.k.toNat)
    (hl : i * s.k.toNat + j < (firstLen s).toNat) : i < (firstBodyLen s).toNat := by
  have hk : 0 < s.k.toNat := Nat.zero_lt_of_lt hj
  have hdiv : (i * s.k.toNat + j) / s.k.toNat = i := by
    rw [Nat.mul_comm, Nat.mul_add_div hk, Nat.div_eq_of_lt hj, Nat.add_zero]
  exact hdiv ▸ outIndex_chunk_lt hk hb hl

end Output

/-- Settles O56: the error of the checks, or the stores of step 7 for what the reads of the share table found. -/
theorem decodeAllOrNothing : Obligations.DecodeAllOrNothing := by
  intro s hk
  cases hmatrix : decodeMatrix s with
  | error e => exact .inl ⟨e, decodeMatrix_error hmatrix, raises_of_decodeMatrix hmatrix⟩
  | ok d =>
    obtain ⟨-, -, -, hb, -, hd⟩ := decodeMatrix_ok hmatrix
    exact .inr ⟨_, d, fun i j => s.byteAt s.sid i (readNo 2 i j), fun x i => bodyColumn s i x,
      exec_decode_of_ok hmatrix, rfl,
      fun _ hv => halfAt_of_read hv, fun _ => outStores_covers hk hb, fun _ _ _ hv => byteAt_of_read hv, hd,
      fun _ _ _ hv => byteAt_of_read hv, fun _ _ hj hl => read_outStores s.out hk hb hj hl,
      fun _ hi => read_outStores_beyond s.out hi, rfl⟩

/-- Settles O57: the checks find what the share table holds, and so do the reads of step 7. -/
theorem decodeReconstructs : Obligations.DecodeReconstructs := by
  intro s id len blen y d h hc hids hbodies hd
  have hmatrix := (h.decodeMatrix_eq_ok_iff hc).2 ⟨hids, hd⟩
  obtain ⟨-, -, hb⟩ := h.consistent_iff.1 hc
  refine ⟨_, exec_decode_of_ok hmatrix, h.firstLen_eq, fun i j hj hl => ?_, fun a ha => ?_, rfl⟩
  · rw [← h.firstLen_eq] at hl
    have hi := chunk_lt_of_index_lt hb hj hl
    rw [h.firstBodyLen_eq] at hi
    have hcolumn : ∀ x ∈ List.range s.k.toNat, bodyColumn s i x = y x i := fun x hx =>
      byteAt_of_read (hbodies x i (List.mem_range.1 hx) hi)
    rw [State.storeOut_out, read_outStores s.out h.1 hb hj hl]
    exact congrArg (some ∘ gfSum) (List.map_congr_left fun x hx => congrArg _ (hcolumn x hx))
  · exact read_outStores_beyond s.out (h.firstLen_eq ▸ ha)

/-! ### One selected share (R191), for any value of `POLY` -/

section ThresholdOne

variable (p : Poly)

/-- What is below t^8 is reduced already. -/
theorem gfReduce_of_lt {x : BitVec 15} (h : x.toNat < 2 ^ 8) : gfReduce p x = x := by
  rw [gfReduce_eq_foldl]
  refine List.foldl_fixed' (fun k => reduceStep_of_clear ?_) _
  rw [BitVec.getLsbD, Nat.testBit_lt_two_pow (h.trans_le (Nat.pow_le_pow_right (by decide) (Nat.le_add_right 8 k)))]
  decide

theorem gfMul_gfOne_left (x : Byte) : gfMul p gfOne x = x := by
  have hprod : clMul gfOne x = x.setWidth 15 := polyOf_injective (by
    rw [polyOf_clMul, polyOf_setWidth (by omega), gfOne, BitVec.ofNat_eq_ofNat, polyOf_one, one_mul])
  rw [gfMul, hprod, gfReduce_of_lt p (by simp; omega)]
  simp

theorem gfInverse_gfOne : gfInverse p gfOne = some gfOne := by
  have hsearch : (fun b => decide (gfMul p gfOne b = gfOne)) = fun b => decide (b = gfOne) :=
    funext fun b => by rw [gfMul_gfOne_left]
  rw [gfInverse, hsearch]
  decide

/-- A pivot that is 1 is its own inverse. -/
theorem pivotStep_of_gfOne {k i : Nat} {w : Mat × Mat} (h : entry w.1 i i = gfOne) : pivotStep p k w i =
    some (eliminate p k i gfOne (fun j => entry w.1 j i) w.1, eliminate p k i gfOne (fun j => entry w.1 j i) w.2) := by
  rw [pivotStep, h, if_neg (by decide), gfInverse_gfOne, Option.map_some]

/-- Scaling the one row of `[1]` by 1. -/
theorem eliminate_matOne_one (coeff : Nat → Byte) : eliminate p 1 0 gfOne coeff (matOne 1) = matOne 1 :=
  matOf_congr fun r c hr hc => by
    obtain rfl : r = 0 := by omega
    obtain rfl : c = 0 := by omega
    exact gfMul_gfOne_left p gfOne

/-- The Vandermonde matrix of one node is `[1]`, and so is its inverse. -/
theorem ginv_vand_one (x : Nat → Byte) : ginv p 1 (vand p 1 x) = some (matOne 1) := by
  have hstart : pivots p 1 0 (vand p 1 x) = some (vand p 1 x, matOne 1) := rfl
  rw [ginv_eq_pivots, pivots_succ, hstart, Option.bind_some, pivotStep_of_gfOne p rfl, Option.map_some,
    eliminate_matOne_one]

end ThresholdOne

/-- Settles O58: the decode matrix is `[1]`, so each sum is the body byte itself. -/
theorem decodeThresholdOne : Obligations.DecodeThresholdOne := by
  intro s id len blen body hk h hc hid hbody
  have hk1 : s.k.toNat = 1 := by rw [hk]; rfl
  have hblen : (blen 0).toNat = (len 0).toNat := by rw [hc.2, hk1, Nat.add_sub_cancel, Nat.div_one]
  have hbodies : ∀ x i, x < s.k.toNat → i < (blen 0).toNat → Memory.read s.sbody (65536 * x + i) = some (body i) :=
    fun x i hx hi => by
      obtain rfl : x = 0 := by omega
      rw [Nat.mul_zero, Nat.zero_add]
      exact hbody i (hblen ▸ hi)
  have hids : ∀ i, i < s.k.toNat → id i ≠ 0x00 := fun i hi => by
    obtain rfl : i = 0 := by omega
    exact hid
  obtain ⟨t, ht, holen, hout, -, hframe⟩ := decodeReconstructs s id len blen (fun _ => body) (matOne 1) h hc hids hbodies
    (hk1 ▸ ginv_vand_one s.poly id)
  refine ⟨t, ht, (congrArg State.err hframe :), holen, fun i hi => ?_⟩
  have hbyte := hout i 0 (by omega) (by rwa [hk1, Nat.mul_one])
  rw [hk1, Nat.mul_one, Nat.add_zero] at hbyte
  rw [hbyte]
  calc some (gfMul s.poly gfOne (body i) ^^^ gfZero) = some (body i) := by
        rw [gfMul_gfOne_left, gfZero, BitVec.ofNat_eq_ofNat, BitVec.xor_zero]

end Sys2Proof.Machine
end

section
/-! PROOFS. The round trip of ENCODE and DECODE (42_decode.md R193). -/

namespace Sys2Proof.Machine

/-! ### A vector behind its Vandermonde matrix (R190) -/

section Recover

variable {p : Poly} (h8 : p.getLsbD 8 = true) {k : Nat}
include h8

/-- A matrix of bytes times a vector, over the field (R182). -/
theorem gfValue_mulVec (a : Nat → Nat → Byte) (v : Nat → Byte) (r : Fin k) :
    gfValue p (gfSum ((List.range k).map fun m => gfMul p (a r m) (v m))) =
      (corner p k a).mulVec (fun m => gfValue p (v m)) r := by
  rw [gfValue_gfSum]
  exact Finset.sum_congr rfl fun m _ => gfValue_gfMul h8 _ _

/-- The inverse of the Vandermonde matrix of the points takes the values of a polynomial to its coefficients. -/
theorem coefficient_of_values {x : Nat → Byte} {d : Mat} (hd : ginv p k (vand p k x) = some d) (v : Nat → Byte) {j : Nat}
    (hj : j < k) : gfSum ((List.range k).map fun m => gfMul p (entry d j m) (polyValue p k v (x m))) = v j := by
  have hinv := (productIsOne_iff h8).1 (productIsOne_of_ginv h8 hd).1
  have hvalues : (fun m : Fin k => gfValue p (polyValue p k v (x m))) =
      (corner p k fun i l => gfPow p (x i) l).mulVec fun l => gfValue p (v l) := by
    funext m
    rw [← gfValue_mulVec h8]
    exact congrArg (gfValue p ∘ gfSum) (List.map_congr_left fun l _ => gfMul_comm h8 _ _)
  refine gfValue_injective h8 ?_
  rw [gfValue_mulVec h8 (entry d) _ ⟨j, hj⟩, hvalues, Matrix.mulVec_mulVec, hinv, Matrix.one_mulVec]

end Recover

/-! ### Shares of written data -/

section Shares

variable {s : State} (hdata : dataWritten s)
include hdata

/-- Where `DATA` is written below `LENGTH`, every read of a coefficient finds the same byte. -/
theorem coefByte_of_dataWritten (phase c : Nat) : coefByte s phase c = coefByte s 0 c := by
  funext j
  by_cases hlt : c * s.k.toNat + j < s.length.toNat
  · obtain ⟨b, hb⟩ := Option.isSome_iff_exists.1 (hdata _ hlt)
    rw [coefByte_of_read s phase hlt hb, coefByte_of_read s 0 hlt hb]
  · rw [coefByte_beyond s phase (Nat.le_of_not_lt hlt), coefByte_beyond s 0 (Nat.le_of_not_lt hlt)]

theorem coefByte_eq_data {c j : Nat} (hlt : c * s.k.toNat + j < s.length.toNat) :
    some (coefByte s 0 c j) = Memory.read s.data (c * s.k.toNat + j) := by
  obtain ⟨b, hb⟩ := Option.isSome_iff_exists.1 (hdata _ hlt)
  rw [coefByte_of_read s 0 hlt hb, hb]

theorem shareByte_eq_polyValue (hpoly : polyOk s) (x c : Nat) :
    shareByte s x c = polyValue s.poly s.k.toNat (coefByte s 0 c) (BitVec.ofNat 8 x) := by
  rw [shareByte, horner_coef x hpoly, coefByte_of_dataWritten hdata]

end Shares

/-! ### What a supply of copies holds (R193) -/

section Copies

variable {s u : State} {src : Nat → Nat}

/-- The id of a copy of slot `src i` of an ENCODE. -/
def copyId (src : Nat → Nat) (i : Nat) : Byte := BitVec.ofNat 8 (src i + 1)

theorem copyId_toNat {i : Nat} (h : src i < s.n.toNat) : (copyId src i).toNat = src i + 1 := by
  rw [copyId, BitVec.toNat_ofNat, Nat.mod_eq_of_lt (by omega)]

variable (h : SuppliesCopies s.encoded u src)
include h

theorem SuppliesCopies.k_eq : u.k = s.k := h.2.1

theorem SuppliesCopies.poly_eq : u.poly = s.poly := h.2.2.1

theorem SuppliesCopies.selected_src_lt {i : Nat} (hi : i < u.k.toNat) : src i < s.n.toNat := by
  obtain ⟨-, -, -, hscnt, hslots, -⟩ := h
  exact (hslots i (hi.trans_le hscnt)).1

theorem SuppliesCopies.copyId_ne_zero {i : Nat} (hi : i < u.k.toNat) : copyId src i ≠ 0x00 := by
  intro hzero
  have hval := copyId_toNat (h.selected_src_lt hi)
  rw [hzero] at hval
  exact absurd hval (Nat.succ_ne_zero _).symm

theorem SuppliesCopies.copyId_injective {i j : Nat} (hi : i < u.k.toNat) (hj : j < u.k.toNat)
    (hij : copyId src i = copyId src j) : i = j := by
  obtain ⟨-, -, -, -, -, hdistinct⟩ := id h
  have hval := congrArg BitVec.toNat hij
  rw [copyId_toNat (h.selected_src_lt hi), copyId_toNat (h.selected_src_lt hj)] at hval
  exact hdistinct i j hi hj (Nat.succ.inj hval)

variable (hk : 1 ≤ s.k.toNat)
include hk

theorem SuppliesCopies.supplied : Supplied u (copyId src) (fun _ => s.length) fun _ => BitVec.ofNat 16 (bodyLen s) := by
  obtain ⟨-, huk, -, hscnt, hslots, -⟩ := h
  refine ⟨by rw [huk]; exact hk, hscnt, fun i hi => ?_⟩
  obtain ⟨hsrc, hsid, hslen, hsblen, -⟩ := hslots i hi
  replace hsrc : src i < s.n.toNat := hsrc
  refine ⟨?_, ?_, ?_⟩
  · rw [hsid, read_encoded_sid, if_pos hsrc]
    rfl
  · rw [hslen, read_encoded_slen, if_pos hsrc]
  · rw [hsblen, read_encoded_sblen, if_pos hsrc]

theorem SuppliesCopies.consistent :
    Consistent u (copyId src) (fun _ => s.length) fun _ => BitVec.ofNat 16 (bodyLen s) := by
  obtain ⟨hn, huk, -, -, hslots, -⟩ := h
  refine ⟨fun i hi => ⟨rfl, rfl, ?_⟩, ?_⟩
  · have hsrc : src i < s.n.toNat := (hslots i hi).1
    rw [copyId_toNat hsrc, hn]
    exact hsrc
  · rw [BitVec.toNat_ofNat, Nat.mod_eq_of_lt (bodyLen_lt s hk), huk]
    rfl

theorem SuppliesCopies.read_sbody {x c : Nat} (hx : x < u.k.toNat) (hc : c < bodyLen s) :
    Memory.read u.sbody (bodyIndex x c) = some (shareByte s (src x + 1) c) := by
  obtain ⟨-, -, -, hscnt, hslots, -⟩ := id h
  obtain ⟨-, -, -, -, hbody⟩ := hslots x (hx.trans_le hscnt)
  rw [hbody c hc]
  exact read_encoded_sbody hk (h.selected_src_lt hx) hc

end Copies

/-- Settles O59: the bodies of the selected copies are the values of each chunk's polynomial at distinct points, and the
decode matrix takes them back to its coefficients. -/
theorem roundTrip : Obligations.RoundTrip := by
  intro s enc u src hconfig hpoly hdata henc h
  rw [exec_encode] at henc
  cases henc
  have huk := h.k_eq
  have hup := h.poly_eq
  obtain ⟨d, hd⟩ := (ginv_vand_isSome_iff hpoly).2 fun i j hi hj => h.copyId_injective (huk ▸ hi) (huk ▸ hj)
  have hbodies : ∀ x c, x < u.k.toNat → c < (BitVec.ofNat 16 (bodyLen s)).toNat → Memory.read u.sbody (65536 * x + c) =
      some (polyValue s.poly s.k.toNat (coefByte s 0 c) (copyId src x)) := fun x c hx hc => by
    rw [BitVec.toNat_ofNat, Nat.mod_eq_of_lt (bodyLen_lt s hconfig.1)] at hc
    exact (h.read_sbody hconfig.1 hx hc).trans (congrArg some (shareByte_eq_polyValue hdata hpoly _ _))
  obtain ⟨t, ht, holen, hout, hbeyond, hframe⟩ := decodeReconstructs u (copyId src) _ _ _ d (h.supplied hconfig.1)
    (h.consistent hconfig.1) (fun i => h.copyId_ne_zero) hbodies (huk ▸ hup ▸ hd)
  refine ⟨t, ht, (congrArg State.err hframe :), holen, fun a ha => ?_, hbeyond, hframe⟩
  have hindex : a / s.k.toNat * s.k.toNat + a % s.k.toNat = a := Nat.div_add_mod' a _
  have hj : a % s.k.toNat < s.k.toNat := Nat.mod_lt _ hconfig.1
  have hbyte := hout (a / s.k.toNat) (a % s.k.toNat) (huk ▸ hj) (by rwa [huk, hindex])
  rw [huk, hup, coefficient_of_values (legalPoly_bit8 hpoly) hd _ hj, coefByte_eq_data hdata (by rwa [hindex]),
    hindex] at hbyte
  exact hbyte

/-- Settles O60: both give back the data. -/
theorem subsetIndependence : Obligations.SubsetIndependence := by
  intro s enc u u' t t' src src' hconfig hpoly hdata henc h h' ht ht'
  obtain ⟨v, hv, -, holen, hout, -⟩ := roundTrip s enc u src hconfig hpoly hdata henc h
  obtain ⟨v', hv', -, holen', hout', -⟩ := roundTrip s enc u' src' hconfig hpoly hdata henc h'
  obtain rfl : v = t := Host.Outcome.next.inj (hv.symm.trans ht)
  obtain rfl : v' = t' := Host.Outcome.next.inj (hv'.symm.trans ht')
  rw [holen, holen']
  exact ⟨rfl, fun i hi => (hout i hi).trans (hout' i hi).symm⟩

end Sys2Proof.Machine
end

section
/-! PROOFS. The matrix unit (43_matrix.md): what VAND and MINV write (R202, R204), and what the inverter returns and when
(R205, R207, R208). -/

namespace Sys2Proof.Machine

/-! ### Inverses by their corners (R207, R208) -/

section Inverses

variable {p : Poly} {k : Nat}

/-- A corner over the field determines its bytes. -/
theorem eq_of_corner_eq (h8 : p.getLsbD 8 = true) {a b : Nat → Nat → Byte} (h : corner p k a = corner p k b) {r c : Nat}
    (hr : r < k) (hc : c < k) : a r c = b r c :=
  gfValue_injective h8 (congrFun (congrFun h ⟨r, hr⟩) ⟨c, hc⟩)

/-- Every matrix over the field is the corner of some bytes. -/
theorem corner_surjective (h8 : p.getLsbD 8 = true) (n : Nat) : Function.Surjective (corner p n) := by
  intro M
  choose byte hbyte using gfValue_surjective h8
  refine ⟨fun r c => if h : r < n ∧ c < n then byte (M ⟨r, h.1⟩ ⟨c, h.2⟩) else gfZero, ?_⟩
  ext r c
  rw [corner_apply, dif_pos ⟨r.2, c.2⟩, hbyte]

/-- A two-sided inverse agrees with every right inverse and every left inverse. -/
theorem ProductIsOne.unique (h8 : p.getLsbD 8 = true) {a b m : Nat → Nat → Byte} (hright : ProductIsOne p k a m)
    (hleft : ProductIsOne p k m a) (hb : ProductIsOne p k a b ∨ ProductIsOne p k b a) : corner p k b = corner p k m := by
  rw [productIsOne_iff h8] at hright hleft
  rcases hb with hab | hba
  · exact (left_inv_eq_right_inv hleft ((productIsOne_iff h8).1 hab)).symm
  · exact left_inv_eq_right_inv ((productIsOne_iff h8).1 hba) hright

/-- A corner has a right inverse exactly where it is not singular. -/
theorem exists_productIsOne_iff_det (hp : p ∈ Config.legalPolys) {a : Nat → Nat → Byte} :
    (∃ b, ProductIsOne p k a b) ↔ (corner p k a).det ≠ 0 := by
  have h8 := legalPoly_bit8 hp
  have : Fact (Irreducible (polyOf p)) := ⟨irreducible_poly hp⟩
  calc (∃ b, ProductIsOne p k a b)
      ↔ ∃ b, corner p k a * corner p k b = 1 := exists_congr fun _ => productIsOne_iff h8
    _ ↔ ∃ M, corner p k a * M = 1 :=
      ((corner_surjective h8 k).exists (p := fun M => corner p k a * M = 1)).symm
    _ ↔ IsUnit (corner p k a) := isUnit_iff_exists_inv.symm
    _ ↔ IsUnit (corner p k a).det := Matrix.isUnit_iff_isUnit_det _
    _ ↔ (corner p k a).det ≠ 0 := isUnit_iff_ne_zero

/-- The first pivot is tested on `A` itself: no later row is tried in its place (R205). -/
theorem ginv_eq_none_of_first_pivot (hk : 0 < k) {a : Nat → Nat → Byte} (h : a 0 0 = gfZero) :
    ginv p k (matOf k a) = none := by
  obtain ⟨n, rfl⟩ := Nat.exists_eq_succ_of_ne_zero hk.ne'
  have hstep : pivotStep p (n + 1) (matOf (n + 1) a, matOne (n + 1)) 0 = none :=
    if_pos ((entry_matOf a hk hk).trans h)
  rw [ginv, List.range_succ_eq_map, List.foldlM_cons, hstep]
  rfl

end Inverses

/-! ### The statements on the inverter -/

/-- Settles O48. -/
theorem ginvIsTwoSidedInverse : Obligations.GinvIsTwoSidedInverse := by
  intro p hp k a m hm
  have h8 := legalPoly_bit8 hp
  obtain ⟨hleft, hright⟩ := productIsOne_of_ginv h8 hm
  exact ⟨hright, hleft, fun b hb r c hr hc => eq_of_corner_eq h8 (hright.unique h8 hleft hb) hr hc⟩

/-- Settles O49: pivot by pivot, a leading corner is invertible exactly where its determinant is not zero. -/
theorem ginvSucceedsIffLeadingCornersInvertible : Obligations.GinvSucceedsIffLeadingCornersInvertible := by
  intro p hp k a
  rw [ginv_isSome_iff_det hp]
  constructor
  · intro h n hn hnk
    obtain ⟨m, rfl⟩ := Nat.exists_eq_succ_of_ne_zero (Nat.one_le_iff_ne_zero.1 hn)
    exact (exists_productIsOne_iff_det hp).2 (h m hnk)
  · intro h m hm
    exact (exists_productIsOne_iff_det hp).1 (h (m + 1) m.succ_pos hm)

/-- Settles O50. -/
theorem ginvOfVandermondeIffDistinct : Obligations.GinvOfVandermondeIffDistinct := fun _ hp _ _ =>
  ginv_vand_isSome_iff hp

/-! ### The commands (R202, R204) -/

theorem exec_vand (s : State) :
    exec .vand s = .next (s.storeMa (cornerStores s.k.toNat (vandOf s.poly s.k.toNat (nodeByte s)))) := rfl

section Minv

variable {s : State}

theorem raises_of_ginv_none (h : ginv s.poly s.k.toNat (maCorner s) = none) : Raises .minv .singularMatrix s := by
  rw [Raises, exec_minv, h]; rfl

theorem exec_minv_of_ginv_some {m : Mat} (h : ginv s.poly s.k.toNat (maCorner s) = some m) :
    exec .minv s = .next (s.storeMb (cornerStores s.k.toNat m)) := by
  rw [exec_minv, h]; rfl

end Minv

/-- Settles O46: the nodes are what the reads of `X` find. -/
theorem vandResult : Obligations.VandResult := by
  intro s
  refine ⟨_, nodeByte s, exec_vand s, rfl, fun _ _ _ hv => byteAt_of_read hv, fun r c hr hc => ?_,
    fun _ ha => read_cornerStores_outside s.ma _ ha, rfl⟩
  rw [← entry_matOf (fun i j => gfPow s.poly (nodeByte s i j) j) hr hc]
  exact read_cornerStores s.ma _ s.k.isLt.le hr hc

/-- Settles O47: the matrix is what the reads of `MA` find. -/
theorem minvResult : Obligations.MinvResult := fun s =>
  ⟨fun r c => s.byteAt s.ma (matIndex r c) (readNo 0 r c), fun _ _ _ hv => byteAt_of_read hv, raises_of_ginv_none, rfl,
    fun m hm => ⟨_, exec_minv_of_ginv_some hm, fun _ _ hr hc => read_cornerStores s.mb m s.k.isLt.le hr hc,
      fun _ hb => read_cornerStores_outside s.mb m hb, rfl⟩⟩

/-- Settles O51: the corner MINV reads is the one written, so R208 gives success and R207 says what is written. -/
theorem minvCompletesWithTheInverse : Obligations.MinvCompletesWithTheInverse := by
  intro s a hpoly hwritten hcorners
  obtain ⟨found, hfound, -, -, hdone⟩ := minvResult s
  have hsame : matOf s.k.toNat found = matOf s.k.toNat a :=
    matOf_congr fun r c hr hc => hfound r c _ (hwritten r c hr hc)
  obtain ⟨m, hm⟩ := (ginvSucceedsIffLeadingCornersInvertible s.poly hpoly s.k.toNat a).2 hcorners
  obtain ⟨hright, hleft, -⟩ := ginvIsTwoSidedInverse s.poly hpoly s.k.toNat a m hm
  obtain ⟨t, hexec, hcorner, houtside, hframe⟩ := hdone m (hsame ▸ hm)
  exact ⟨t, entry m, hexec, hcorner, hright, hleft, houtside, hframe⟩

/-- Settles O52: the first pivot is zero. -/
theorem minvRefusesPermutation : Obligations.MinvRefusesPermutation := by
  intro s hk h00 _ _ _
  obtain ⟨found, hfound, hnone, -⟩ := minvResult s
  have hpos : 0 < s.k.toNat := by rw [hk]; decide
  exact hnone (ginv_eq_none_of_first_pivot hpos (hfound 0 0 _ h00))

end Sys2Proof.Machine
end

section
/-! PROOFS. The configuration command (44_system.md R220, R221). -/

namespace Sys2Proof.Machine

/-! ### The two outcomes of CONFIG (R221) -/

section Config

variable {n k : Nat}

theorem exec_config_of_valid (h : configInvalid n k = false) (s : State) :
    exec (.config n k) s = .next (s.setConfig (BitVec.ofNat 8 n) (BitVec.ofNat 8 k)) :=
  congrArg Host.Outcome.next (if_neg (ne_true_of_eq_false h))

theorem raises_of_configInvalid (h : configInvalid n k = true) (s : State) : Raises (.config n k) .configuration s :=
  congrArg Host.Outcome.next (if_pos h)

end Config

/-! ### The command word (R95) -/

/-- Immediates that fit their fields stand in the word as they are. -/
theorem hasWord_formatC {i : Instr} {op n k : Nat} (hop : op < 256) (hn : n ≤ 4095) (hk : k ≤ 4095)
    (h : encode i = formatC op n k) : HasWord i (op * 2 ^ 24 + n * 2 ^ 12 + k) := by
  rw [HasWord, h, formatC, commandWord_toNat hop (formatC_fits n k)]
  omega

/-! ### The statement -/

/-- Settles O40: the tests of R221 refuse exactly the pairs that are not valid, and a valid pair fits in two bytes. -/
theorem configResult : Obligations.ConfigResult := by
  intro n k s
  refine ⟨fun hv => ?_, fun hv => ?_, fun hn hk => hasWord_formatC (op := 0x20) (by decide) hn hk rfl⟩
  · have hn : n < 2 ^ 8 := by omega
    have hk : k < 2 ^ 8 := by omega
    exact ⟨_, exec_config_of_valid (configInvalid_eq_false.2 hv) s, Nat.mod_eq_of_lt hn, Nat.mod_eq_of_lt hk, rfl⟩
  · exact raises_of_configInvalid (Bool.of_not_eq_false (mt configInvalid_eq_false.1 hv)) s

end Sys2Proof.Machine
end

section
/-! PROOFS. Errors and the fault (60_exceptions.md): what a command can raise (R238, R239), and the ways into a fault and
out of it (R240 to R245). -/

namespace Sys2Proof.Machine

/-! ### What a command, an issue and a step do to the fault -/

/-- A command leaves the fault alone, or raises one of its errors and changes nothing else (R238, R239). -/
theorem exec_fault_cases {i : Instr} {s t : State} (h : exec i s = .next t) :
    (t.err = s.err ∧ t.einfo = s.einfo) ∨ ∃ e ∈ errorsOf i, t = s.raise e (encode i) := by
  rcases exec_cases h with hraise | ⟨rd, v, -, rfl⟩ | ⟨n, k, -, -, rfl⟩ | ⟨-, rfl⟩ | ⟨r, -, -, rfl⟩ | ⟨-, rfl⟩ |
    ⟨d, -, -, rfl⟩
  case inl => exact .inr hraise
  all_goals exact .inl ⟨rfl, rfl⟩

/-- From an engine that is not faulted, an error after a command is one that the command raised. -/
theorem raise_of_exec_err {i : Instr} {s t : State} (hs : s.err = none) (h : exec i s = .next t) (ht : t.err ≠ none) :
    ∃ e ∈ errorsOf i, t = s.raise e (encode i) := by
  rcases exec_fault_cases h with ⟨hkept, -⟩ | hraise
  · exact absurd (hkept.trans hs) ht
  · exact hraise

theorem issue_of_faulted {s : State} (hs : s.err ≠ none) (w : Word) : issue w s = .next s :=
  if_pos (Option.isSome_iff_ne_none.2 hs)

/-- Issuing a word leaves the fault alone, or runs the fault sequence with that same word on an engine that was not
faulted (R240, R242). -/
theorem issue_fault_cases {w : Word} {s t : State} (h : issue w s = .next t) :
    (t.err = s.err ∧ t.einfo = s.einfo) ∨ s.err = none ∧ ∃ e, t = s.raise e w := by
  rcases issue_cases h with ⟨-, rfl⟩ | ⟨hs, -, rfl⟩ | ⟨hs, i, hw, he⟩
  · exact .inl ⟨rfl, rfl⟩
  · exact .inr ⟨hs, _, rfl⟩
  · rcases exec_fault_cases he with hkept | ⟨e, -, ht⟩
    · exact .inl hkept
    · exact .inr ⟨hs, e, encode_of_decode hw ▸ ht⟩

/-- Only offset 1 names `ERR`. -/
theorem cellAt_eq_err {off : Word} (h : cellAt off = some .err) : off = 1 :=
  BitVec.eq_of_toNat_eq ((addressMap off .err).1 h).2.symm

/-- A step leaves the fault alone, or it is the fault sequence in a write to `CMD` (R240), a write to `ERR` (R244) or
reset (R270). -/
theorem step_fault_cases {s t : State} (h : step s = .next t) :
    (t.err = s.err ∧ t.einfo = s.einfo) ∨
    (s.err = none ∧ ∃ e w rest, s.pending = .write 0 w :: rest ∧ t = (answered s rest .ok).raise e w) ∨
    (∃ d rest, s.pending = .write 1 d :: rest ∧ t = (answered s rest .ok).clearFault) ∨
    ∃ rest, s.pending = .reset :: rest ∧ t = (s.takeEvent rest).afterReset := by
  rcases step_cases h with ⟨-, rfl⟩ | ⟨off, rest, -, rfl⟩ | ⟨off, d, rest, hp, hw⟩ | hreset
  · exact .inl ⟨rfl, rfl⟩
  · obtain ⟨a, ha⟩ := busRead_eq_answer off (s.takeEvent rest)
    rw [ha]
    exact .inl ⟨rfl, rfl⟩
  · rcases busWrite_cases hw with ⟨-, rfl⟩ | ⟨hc, hi⟩ | ⟨c, hc, -, rfl⟩
    · exact .inl ⟨rfl, rfl⟩
    · rcases issue_fault_cases hi with hkept | ⟨hs, e, rfl⟩
      · exact .inl hkept
      · exact .inr (.inl ⟨hs, e, d, rest, cellAt_eq_cmd hc ▸ hp, rfl⟩)
    · by_cases herr : c = .err
      · subst herr
        exact .inr (.inr (.inl ⟨d, rest, cellAt_eq_err hc ▸ hp, rfl⟩))
      · exact .inl (writeCell_fault herr (s.takeEvent rest) d)
  · exact .inr (.inr (.inr hreset))

/-! ### The statements -/

/-- Settles O8: the error in `ERR` is the one that the command raised. -/
theorem commandErrorsAreListed : Obligations.CommandErrorsAreListed := by
  intro i s t e hs h ht
  obtain ⟨e', he', rfl⟩ := raise_of_exec_err hs h (by simp [ht])
  exact Option.some.inj ht ▸ he'

/-- Settles O9: raising an error writes `ERR` and `EINFO` only. -/
theorem faultsArePrecise : Obligations.FaultsArePrecise := by
  intro i s t hs h ht
  obtain ⟨e, -, rfl⟩ := raise_of_exec_err hs h ht
  exact ⟨e, rfl⟩

/-- Settles O12, over everything a step can do to the fault (`step_fault_cases`). -/
theorem faultEntryAndExit : Obligations.FaultEntryAndExit := by
  intro s t h
  rcases step_fault_cases h with ⟨herr, heinfo⟩ | ⟨hs, e, w, rest, hp, rfl⟩ | ⟨d, rest, hp, rfl⟩ | ⟨rest, hp, rfl⟩
  · exact ⟨fun hs ht => absurd (herr.trans hs) ht, fun _ hne => absurd herr hne, fun _ _ => heinfo⟩
  · exact ⟨fun _ _ => ⟨rest, hp, rfl⟩, fun hf => absurd hs hf, fun hf => absurd hs hf⟩
  · exact ⟨fun _ ht => absurd rfl ht, fun _ _ => ⟨rfl, rfl, rest, .inl ⟨d, hp, rfl⟩⟩, fun hf ht => absurd ht.symm hf⟩
  · exact ⟨fun _ ht => absurd rfl ht, fun _ _ => ⟨rfl, rfl, rest, .inr hp⟩, fun hf ht => absurd ht.symm hf⟩

/-- Settles O7: the write to `CMD` issues its data, which a faulted engine discards undecoded. -/
theorem faultedEngineDiscards : Obligations.FaultedEngineDiscards := by
  intro s w rest hp hs
  calc step s = issue w (answered s rest .ok) := by rw [step_of_pending hp, perform_write_zero]
    _ = .next (answered s rest .ok) := issue_of_faulted (s := answered s rest .ok) hs w

/-- Settles O10: offset 1 is `ERR`, a write to it clears the fault whatever the data, and without a fault `irq` is 0. -/
theorem writeErrClearsFault : Obligations.WriteErrClearsFault := by
  intro s d rest hp
  have hcell : cellAt 1 = some .err := rfl
  exact ⟨_, step_write_of_cell hp hcell nofun, rfl, Bool.and_false _⟩

end Sys2Proof.Machine
end

section
/-! PROOFS. Totality and reset (70_reset_and_hazards.md R270, R286, R287): every step gives a next state, and what a reset
event leaves. -/

namespace Sys2Proof.Machine

/-! ### What a step and a reset leave -/

theorem step_of_no_event {s : State} (h : s.pending = []) : step s = .next s := by
  simp only [step, h]

/-- A step is a total function of the state (R286): it performs the next event, or has none left (R287). -/
theorem step_total (s : State) : ∃ t, step s = .next t := by
  cases hp : s.pending with
  | nil => exact ⟨s, step_of_no_event hp⟩
  | cons ev rest =>
    obtain ⟨t, ht, -⟩ := perform_total ev (s.takeEvent rest)
    exact ⟨t, (step_of_pending hp).trans ht⟩

theorem step_reset {s : State} {rest : List HostEvent} (hp : s.pending = .reset :: rest) :
    step s = .next (s.takeEvent rest).afterReset := step_of_pending hp

theorem registersAtReset_afterReset (s : State) : RegistersAtReset s.afterReset :=
  ⟨fun r => Vector.getElem_replicate r.isLt, rfl, rfl, rfl, rfl, rfl, rfl, rfl, rfl, rfl, rfl,
    Bool.and_false _, rfl⟩

theorem memoriesUnwritten_afterReset (s : State) : MemoriesUnwritten s.afterReset :=
  fun _ => ⟨rfl, rfl, rfl, rfl, rfl, rfl, rfl, rfl, rfl⟩

/-! ### The statements -/

/-- Settles O13: offset 0 is `CMD`, so that a write to it issues its data with `OK` answered, and issuing any word ends
and leaves the port alone (`issue_total`). -/
theorem everyStepAnswers : Obligations.EveryStepAnswers := by
  refine ⟨exec_total, step_total, fun s w rest hp => ?_, fun _ => step_of_no_event⟩
  obtain ⟨t, ht, hpending, hanswers⟩ := issue_total w (answered s rest .ok)
  have hstep : step s = issue w (answered s rest .ok) := (step_of_pending hp).trans (perform_write_zero s w rest)
  exact ⟨t, hstep.trans ht, hanswers, hpending⟩

/-- Settles O24: the step takes the event and resets what is left; the reset state is what reset leaves of itself. -/
theorem resetEventResets : Obligations.ResetEventResets := by
  refine ⟨memoriesUnwritten_afterReset State.reset, fun s rest hp => ?_⟩
  exact ⟨_, step_reset hp, registersAtReset_afterReset _, memoriesUnwritten_afterReset _, rfl, rfl, rfl⟩

end Sys2Proof.Machine
end
